-- ==== Sys2Proof/Config.lean ====
section
/-!
DEFINITION. The constants of the design (00_scope.md rules R6 and R7) and its free values.
Names of the spec stand in the docstrings; a constant the spec itself only decided is marked
with its decision D<n> of 92_eei_decisions.md and its row of the assumption log.
-/

namespace Sys2Proof.Config

/-- `P` (R6): bit position of the implicit leading one of an UnpackedFloat mantissa. -/
@[simp, reducible] def pointBit : Nat := 30

/-- `FRACW` (R6): explicit fraction bits of a packed value. -/
@[simp, reducible] def fracWidth : Nat := 23

/-- `EXPW` (R6): exponent field bits of a packed value. -/
@[simp, reducible] def expWidth : Nat := 8

/-- `BIAS` (R6): the exponent bias. -/
@[simp, reducible] def bias : Int := 127

/-- `E` (R6): bits rounded away by RoundAndPack, `P - 23`. -/
@[simp, reducible] def roundBits : Nat := 7

/-- `HALF` (R6): `2^(E-1)`, the remainder of an exact tie. -/
@[simp, reducible] def half : Nat := 64

/-- `S` (R6): bit position of the 1.0 point of a WideAccumulator, `2P`. -/
@[simp, reducible] def accPoint : Nat := 60

/-- `MW` (R7, D11): width of an UnpackedFloat mantissa. -/
@[simp, reducible] def mantissaWidth : Nat := 31

/-- `EW` (R7, D5): width of an exponent port, signed two's complement. -/
@[simp, reducible] def portWidth : Nat := 10

/-- `W` (R7, D6): width of a WideAccumulator. -/
@[simp, reducible] def accWidth : Nat := 62

/-- `W_top` (R7, D6): index of the accumulator's most significant bit. -/
@[simp, reducible] def accTop : Nat := 61

/-- `NORM_SHIFT` (R7, D6) of an accumulator of `w` bits: `w - 1 - P`; 31 for `W = 62`. -/
@[simp, reducible] def normShift (w : Nat) : Nat := w - 1 - 30

/-- `K` (R7, R94, D6) of an accumulator of `w` bits: `w - 1 - 2P`; 1 for `W = 62`. -/
@[simp, reducible] def normCorrection (w : Nat) : Int := (w : Int) - 61

/-- `PRESCALE` (R7, D7): left shift of the addend mantissa to the accumulator's scale. -/
@[simp, reducible] def prescale : Nat := 30

/-- `AW` (R7, D12): width of a StickyShift amount port, unsigned. -/
@[simp, reducible] def amountWidth : Nat := 10

/-- `REGISTERED` (R7, D1): the output register is present. -/
@[simp, reducible] def registered : Bool := true

/-- `RESULT_RESET` (R7, R33, R170, D4, U4): the word in the output register between reset and the
first active clock edge. The spec leaves it OPEN, a parameter with no default that must not be
assumed 0, so it is a FREE VALUE: one word of which nothing can be proved (DESIGN CHOICE, log entry
1, unsafe). -/
opaque resultReset : BitVec 32

/-- FREE VALUE (U3 of 93_implementation_defined.md; log entry 5): the bits on the 10-bit exponent
port of the stand-alone renormalizer when the exponent of rule R90 does not fit that port. The
block is combinational (R92), so the bits may depend on its three inputs and on nothing else. -/
opaque renormPortFree (sign : Bool) (exponent : Int) (mantissa : BitVec 62) : BitVec 10

end Sys2Proof.Config
end

