-- ==== Sys2Proof/Word.lean ====
section
/-!
DEFINITION. The words on the ports and the two record types carried on wires
(10_state.md rules R21 and R23, 30_encoding.md rule R50).
-/

namespace Sys2Proof

/-- A packed 32-bit value (R50). -/
abbrev Word := BitVec 32

/-- A byte of an operand bundle, as the opcode table numbers its bits. -/
abbrev Byte := BitVec 8

/-- The mantissa of an UnpackedFloat, `u31` with the implicit one at bit 30 (R21). -/
abbrev Mantissa := BitVec 31

/-- `Acc` (R23): the mantissa of a WideAccumulator, `u62` with the 1.0 point at bit 60. -/
abbrev Acc := BitVec 62

/-- UnpackedFloat (R21): `sign = true` is negative; the exponent is an unbounded integer, as the
rules compute it (R9). -/
structure UnpackedFloat where
  sign : Bool
  exponent : Int
  mantissa : Mantissa
  deriving DecidableEq, Repr

/-- A WideAccumulator mantissa with the sign and the exponent that travel beside it (R23). -/
structure WideFloat where
  sign : Bool
  exponent : Int
  mantissa : Acc
  deriving DecidableEq, Repr

/-- The canonical zero `(0, -127, 0)` of Renormalize (R90, R13). -/
def canonicalZero : UnpackedFloat := ⟨false, -127, 0#31⟩

end Sys2Proof
end

