-- ==== Sys2Proof/Machine/Flags.lean ====
section
/-!
DEFINITION. One-bit conditions computed inside the blocks. The unit has no status flag: nothing here
is kept or reported (10_state.md rule R27, 60_exceptions.md rule R151).
-/

namespace Sys2Proof.Machine

/-- The sticky bit of a right shift: some bit of `low(value, amount)` is set (R80). -/
def stickyBit (value amount : Nat) : Bool := decide (value % 2 ^ amount ≠ 0)

/-- `up` (R102): round to nearest, an exact tie to the even neighbour. -/
def roundsUp (rounded remainder : Nat) : Bool :=
  decide (Config.half < remainder) || (decide (remainder = Config.half) && decide (rounded % 2 = 1))

/-- `carry` (R103): the incremented 24-bit value reached bit 24. -/
def roundingCarry (rounded1 : Nat) : Bool := rounded1.testBit 24

/-- Bit `2P + 1 = 61` of the raw product (R123, D14). -/
def productTopBit (mantissa : Acc) : Bool := mantissa.getLsbD Config.accTop

end Sys2Proof.Machine
end

