-- ==== Sys2Proof/Syntax.lean ====
section
/-!
DEFINITION. The five operations of spec/opcode_table.json with their operands (R54, R53, R11).
The unit has no opcode: each operation is what one block does.
-/

namespace Sys2Proof

/-- One operation with its operands. Exponents are integers and shift amounts naturals, as in the
rules (R9, R80); that they fit their ports is `Instr.WellFormed`. -/
inductive Instr where
  /-- SPLITFLOAT, `fp32_fma_unpacker`, format W32 (R70). -/
  | splitFloat (x : Word)
  /-- STICKYSHIFT, `sticky_right_shifter` with N = 62, format SS (R80). -/
  | stickyShift (amount : Nat) (value : Acc)
  /-- RENORMALIZE, `fp32_renormalizer`, format WA (R90). -/
  | renormalize (sign : Bool) (exponent : Int) (mantissa : Acc)
  /-- ROUNDANDPACK, `fp32_rounder_packer`, format UF (R100). -/
  | roundAndPack (sign : Bool) (exponent : Int) (mantissa : Mantissa)
  /-- FMA, `fp32_fma_datapath`, format OP3 (R120). -/
  | fma (a b c : Word)
  deriving DecidableEq, Repr

end Sys2Proof
end

