-- ==== Sys2Proof/WellFormed.lean ====
section
/-!
DEFINITION. When an operation's operands fit the ports of its block: a shift amount the 10-bit
unsigned amount port (R81, D12), an exponent the 10-bit two's-complement port (R52, D5). Every
other operand fits by its type. No bit pattern of a port is illegal (R57).
-/

namespace Sys2Proof

/-- The exponent fits a signed two's-complement port of 10 bits (R52). -/
abbrev exponentFitsPort (e : Int) : Prop := -512 ≤ e ∧ e ≤ 511

/-- The amount fits the unsigned port of 10 bits (R81). -/
abbrev amountFitsPort (n : Nat) : Prop := n < 1024

/-- Every operand of the operation fits its port. -/
def Instr.wellFormed : Instr → Bool
  | .splitFloat _ => true
  | .stickyShift amount _ => decide (amountFitsPort amount)
  | .renormalize _ exponent _ => decide (exponentFitsPort exponent)
  | .roundAndPack _ exponent _ => decide (exponentFitsPort exponent)
  | .fma _ _ _ => true

/-- `Instr.wellFormed` as a proposition. -/
abbrev Instr.WellFormed (i : Instr) : Prop := i.wellFormed = true

end Sys2Proof
end

