-- ==== Sys2Proof/Decode.lean ====
section
/-!
DEFINITION. Operand bundles (30_encoding.md rules R53 and R54, opcode_table.json): reading the
operands of an operation from the bytes of its bundle, and writing them.

The unit has no opcode: every row of the table has mask 0, and what tells the operations apart is
the block the operands are presented to, that is the FORMAT of the bundle. In whole bytes the five
formats have five different lengths (W32 4, UF 6, SS 9, WA 10, OP3 12), so the length of a bundle
names its block (DESIGN CHOICE, log entry 3). The bytes are in the table's order, the byte with bits
7..0 first (DESIGN CHOICE, log entry 4; the unit itself has no byte order, R41). The six bits above
a 42-bit UF bundle and the seven above a 73-bit WA bundle are no part of it and are 0.
-/

namespace Sys2Proof

/-- The number a list of bytes stands for, the first byte holding bits 7..0. -/
def bundleOfBytes : List Byte → Nat
  | [] => 0
  | b :: rest => b.toNat + 256 * bundleOfBytes rest

/-- The low `n` bytes of a number, bits 7..0 first. -/
def bytesOfBundle : Nat → Nat → List Byte
  | 0, _ => []
  | n + 1, w => BitVec.ofNat 8 w :: bytesOfBundle n (w / 256)

/-- The bit pattern of an exponent on a 10-bit port: `e mod 2^10` (R52). -/
def portOfExponent (e : Int) : BitVec 10 := BitVec.ofInt 10 e

/-- The exponent a 10-bit pattern stands for, two's complement (R52). -/
def exponentOfPort (p : BitVec 10) : Int := p.toInt

/-- Why a bundle is not an operation. -/
inductive DecodeError where
  /-- No format of R53 has this many bytes. -/
  | noFormatOfLength (bytes : Nat)
  /-- A bit above the format's top bit is set; `format` is UF or WA. -/
  | paddingSet (format : String)
  deriving DecidableEq, Repr

/-- Format W32 of R53: the packed operand of SplitFloat. -/
def decodeW32 (w : Nat) : Instr := .splitFloat (BitVec.ofNat 32 w)

/-- Format SS of R53: `amount[71:62]`, `value[61:0]`. -/
def decodeSS (w : Nat) : Instr :=
  let bundle := BitVec.ofNat 72 w
  .stickyShift (bundle.extractLsb' 62 10).toNat (bundle.extractLsb' 0 62)

/-- Format WA of R53: `sign[72]`, `exponent[71:62]`, `mantissa[61:0]`. -/
def decodeWA (w : Nat) : Instr :=
  let bundle := BitVec.ofNat 73 w
  .renormalize (bundle.getLsbD 72) (exponentOfPort (bundle.extractLsb' 62 10))
    (bundle.extractLsb' 0 62)

/-- Format UF of R53: `sign[41]`, `exponent[40:31]`, `mantissa[30:0]`. -/
def decodeUF (w : Nat) : Instr :=
  let bundle := BitVec.ofNat 42 w
  .roundAndPack (bundle.getLsbD 41) (exponentOfPort (bundle.extractLsb' 31 10))
    (bundle.extractLsb' 0 31)

/-- Format OP3 of R53: `a[95:64]`, `b[63:32]`, `c[31:0]`. -/
def decodeOP3 (w : Nat) : Instr :=
  let bundle := BitVec.ofNat 96 w
  .fma (bundle.extractLsb' 64 32) (bundle.extractLsb' 32 32) (bundle.extractLsb' 0 32)

/-- The operation whose bundle these bytes are: a constant function of the format (R54), total on
any bytes, refusing by name what is a bundle of no format. -/
def decode (bytes : List Byte) : Except DecodeError Instr :=
  let w := bundleOfBytes bytes
  match bytes.length with
  | 4 => .ok (decodeW32 w)
  | 6 => if w < 2 ^ 42 then .ok (decodeUF w) else .error (.paddingSet "UF")
  | 9 => .ok (decodeSS w)
  | 10 => if w < 2 ^ 73 then .ok (decodeWA w) else .error (.paddingSet "WA")
  | 12 => .ok (decodeOP3 w)
  | n => .error (.noFormatOfLength n)

/-- How many bytes hold the bundle of an operation (the widths of R53, in whole bytes). -/
def Instr.bundleLength : Instr → Nat
  | .splitFloat _ => 4
  | .stickyShift _ _ => 9
  | .renormalize _ _ _ => 10
  | .roundAndPack _ _ _ => 6
  | .fma _ _ _ => 12

/-- The bundle of an operation as one number, its fields concatenated as in R53. -/
def Instr.bundle : Instr → Nat
  | .splitFloat x => x.toNat
  | .stickyShift amount value => (BitVec.ofNat 10 amount ++ value).toNat
  | .renormalize sign exponent mantissa =>
      (BitVec.ofBool sign ++ portOfExponent exponent ++ mantissa).toNat
  | .roundAndPack sign exponent mantissa =>
      (BitVec.ofBool sign ++ portOfExponent exponent ++ mantissa).toNat
  | .fma a b c => (a ++ b ++ c).toNat

/-- The bytes of a well-formed operation's bundle. -/
def encode (i : Instr) : List Byte := bytesOfBundle i.bundleLength i.bundle

/-- How many bytes hold a table row of `nbits` bits. -/
def bytesForBits (nbits : Nat) : Nat := (nbits + 7) / 8

/-- The operation the decoder reads from the bits `w` of a table row of `nbits` bits. -/
def decodeTableWord (nbits w : Nat) : Option Instr :=
  match decode (bytesOfBundle (bytesForBits nbits) w) with
  | .ok i => some i
  | .error _ => none

end Sys2Proof
end

