-- ==== Sys2Proof/Machine/State.lean ====
section
/-!
DEFINITION. The state of the machine as plain data (10_state.md), the reasons a step can stop, and
the state after reset.

THE SPEC'S STATE is one register, `result` (R20). Everything else here is the model's own, and
each field says so: whether an active edge has loaded the register yet (R33's "no value"), the
values on the input ports (the host drives them, R34), the values on the output ports of the four
blocks when each is used alone (R54; combinational wires, not state, R24), and the host's schedule
of what it presents at the coming steps (95_test_vectors.md section 6).
-/

namespace Sys2Proof.Machine

/-- What the host connects to one input port of the datapath for one clock edge (R35, R175). -/
inductive PortSource where
  /-- The host drives this word. -/
  | word (w : Word)
  /-- The host wires the output port `result` to the input port, inverting the bits set in `flip`
  (`flip = 0` is plain feedback, R175; `flip = 0x80000000` is the wiring of program P6). -/
  | result (flip : Word)
  deriving DecidableEq, Repr

/-- One thing the host does to the unit; one step of the machine each. -/
inductive HostEvent where
  /-- Present an operand bundle (R53). An OP3 bundle is on `a`, `b`, `c` at one active clock edge;
  a bundle of another format is on the inputs of that stand-alone block, with no clock edge. -/
  | present (bundle : List Byte)
  /-- One active clock edge with each input port driven or wired to `result` (R175, feedback). -/
  | wire (a b c : PortSource)
  /-- Reset the output register (R170). -/
  | reset
  deriving DecidableEq, Repr

/-- The state. -/
structure State where
  /-- The output register of `fp32_fma_datapath`, the only state of the spec (R20, R31). -/
  result : Word
  /-- Model's own: an active clock edge has loaded `result` since reset. While it is `false` the
  register holds `RESULT_RESET`, which is no value to a consumer (R33, R170). -/
  loaded : Bool
  /-- Model's own: the word the host holds on input port `a` (R32, R34). -/
  a : Word
  /-- Model's own: the word on input port `b`. -/
  b : Word
  /-- Model's own: the word on input port `c`. -/
  c : Word
  /-- Model's own: the output ports of the stand-alone `fp32_fma_unpacker` (R71). -/
  unpackerOut : UnpackedFloat
  /-- Model's own: the output port of the stand-alone `sticky_right_shifter`, N = 62 (R81). -/
  shifterOut : Acc
  /-- Model's own: the outputs of the stand-alone `fp32_renormalizer`, the exponent as the integer
  of rule R90 (R92, R95). -/
  renormOut : UnpackedFloat
  /-- Model's own: the bits on the 10-bit exponent port of that block (R92, R95, U3). -/
  renormExponentPort : BitVec 10
  /-- Model's own: the output port of the stand-alone `fp32_rounder_packer` (R109). -/
  packerOut : Word
  /-- Model's own: what the host does at the coming steps, the next first. When it is empty the
  host holds the datapath's inputs and the clock runs on (program P4). -/
  schedule : List HostEvent
  deriving DecidableEq, Repr

/-- Why the machine stops with a fault: for no reason. The unit raises nothing, is total, and has no
invalid state (R150), so there is no constructor. -/
inductive Fault where
  deriving DecidableEq, Repr

/-- Why a step has no meaning. -/
inductive Refusal where
  /-- An operation without a meaning; raised by no arm of `exec` in this model. -/
  | notModelled (mnemonic : String)
  /-- The host scheduled bytes that are a bundle of none of the five formats of R53; raised by
  `runBundle`. Safe: such bytes are on no port of the unit. -/
  | notABundle (reason : DecodeError)
  deriving DecidableEq, Repr

/-- The machine right after reset. `result` holds the free `RESULT_RESET` and no edge has loaded it
(R33, log entry 1). The input ports
belong to the host and the blocks' outputs are functions of their inputs (R34, R24); their values
here are the model's (DESIGN CHOICE, log entry 2): `+0` on every port, the zero triple `(0, -127, 0)`
on the unpacked ones. Nothing is scheduled. -/
def State.reset : State where
  result := Config.resultReset
  loaded := false
  a := 0#32
  b := 0#32
  c := 0#32
  unpackerOut := canonicalZero
  shifterOut := 0#62
  renormOut := canonicalZero
  renormExponentPort := portOfExponent (-127)
  packerOut := 0#32
  schedule := []

end Sys2Proof.Machine
end

