-- ==== Sys2Proof/Machine/Ops.lean ====
section
/-!
DEFINITION. The named updates of State. Each block writes its own output and nothing else, so that a
meaning is one computation and one of these.

There is no register file, no memory, no exception entry and no return from one to share between
instructions: the unit has none (R25, R40, R150, R154, R155).
-/

namespace Sys2Proof.Machine

/-- An active clock edge samples the three inputs and loads the output register (R31, R174). -/
def State.clockEdge (s : State) (a b c result : Word) : State :=
  { s with a := a, b := b, c := c, result := result, loaded := true }

/-- The stand-alone unpacker's outputs take these values (R71). -/
def State.driveUnpacker (s : State) (u : UnpackedFloat) : State := { s with unpackerOut := u }

/-- The stand-alone shifter's output takes this value (R81). -/
def State.driveShifter (s : State) (v : Acc) : State := { s with shifterOut := v }

/-- The stand-alone renormalizer's outputs take these values (R92). -/
def State.driveRenormalizer (s : State) (u : UnpackedFloat) (port : BitVec 10) : State :=
  { s with renormOut := u, renormExponentPort := port }

/-- The stand-alone packer's output takes this value (R109). -/
def State.drivePacker (s : State) (w : Word) : State := { s with packerOut := w }

/-- Reset of the output register (R170): until the next active clock edge it holds `RESULT_RESET`,
which is no value to a consumer; nothing else changes. -/
def State.resetRegister (s : State) : State :=
  { s with result := Config.resultReset, loaded := false }

/-- The host presents one more bundle, before everything it has scheduled already. -/
def State.presentNext (s : State) (bundle : List Byte) : State :=
  { s with schedule := .present bundle :: s.schedule }

end Sys2Proof.Machine
end

