-- ==== Sys2Proof/Machine/StickyShift.lean ====
section
/-!
DEFINITION. StickyShift, the block `sticky_right_shifter` (42_stickyshift.md).
-/

namespace Sys2Proof.Machine

/-- `StickyShift_N(value, amount)`, the three cases of R80, for every width `N`. -/
def stickyShift {N : Nat} (value : BitVec N) (amount : Nat) : BitVec N :=
  if amount = 0 then value
  else if N ≤ amount then
    if value = 0#N then 0#N else BitVec.ofNat N 1
  else
    (value >>> amount) ||| BitVec.ofNat N (stickyBit value.toNat amount).toNat

/-- STICKYSHIFT on the stand-alone block with N = 62 (R80, R81). -/
def execStickyShift (amount : Nat) (value : Acc) (s : State) : Host.Outcome State Fault Refusal :=
  .next (s.driveShifter (stickyShift value amount))

end Sys2Proof.Machine
end

