-- ==== Sys2Proof/Machine/Renormalize.lean ====
section
/-!
DEFINITION. Renormalize, the block `fp32_renormalizer` (43_renormalize.md).
-/

namespace Sys2Proof.Machine

/-- The index of the highest set bit (R10). Used at nonzero values only; the value at 0 is no part
of the spec and no result depends on it (U8, log entry 7). -/
def msb {w : Nat} (m : BitVec w) : Nat := m.toNat.log2

/-- Leading-zero count of a nonzero accumulator mantissa: `(w - 1) - msb` (R91). -/
def clz {w : Nat} (m : BitVec w) : Nat := w - 1 - msb m

/-- Renormalize over an accumulator of `w` bits, with the `NORM_SHIFT` and `K` that belong to that
width (R90, R94). The 31 bits kept are all the bits the shifted value has. -/
def renormalizeWide {w : Nat} (sign : Bool) (exponent : Int) (mantissa : BitVec w) :
    UnpackedFloat :=
  if mantissa = 0#w then canonicalZero
  else
    { sign := sign
      exponent := exponent - (clz mantissa : Int) + Config.normCorrection w
      mantissa := (stickyShift (mantissa <<< clz mantissa) (Config.normShift w)).setWidth 31 }

/-- `Renormalize(sign, exponent, mantissa)` with `W = 62`, `NORM_SHIFT = 31`, `K = 1` (R90, D6). -/
def renormalize (sign : Bool) (exponent : Int) (mantissa : Acc) : UnpackedFloat :=
  renormalizeWide sign exponent mantissa

/-- The bits on the block's 10-bit exponent port (R52, R92): two's complement where the exponent of
R90 fits, a FREE VALUE where it does not (R95, U3, log entry 5). It never wraps silently. -/
def renormExponentBits (sign : Bool) (exponent : Int) (mantissa : Acc) : BitVec 10 :=
  let e := (renormalize sign exponent mantissa).exponent
  if exponentFitsPort e then portOfExponent e else Config.renormPortFree sign exponent mantissa

/-- RENORMALIZE on the stand-alone block (R90, R92). -/
def execRenormalize (sign : Bool) (exponent : Int) (mantissa : Acc) (s : State) :
    Host.Outcome State Fault Refusal :=
  .next (s.driveRenormalizer (renormalize sign exponent mantissa)
    (renormExponentBits sign exponent mantissa))

end Sys2Proof.Machine
end

