-- ==== Sys2Proof/Machine/Operands.lean ====
section
/-!
DEFINITION. The operand forms of the unit: the fields of a packed value (30_encoding.md rules R50
and R51), the assembly of a mantissa from a fraction (R56), of a packed value from its fields
(R105), and the forms of a zero and of a normalized triple (R13, R22).
-/

namespace Sys2Proof.Machine

/-- `x[31]`: true is negative (R50). -/
def signOf (x : Word) : Bool := x.getLsbD 31

/-- `x[30:23]`, the exponent field (R50). -/
def exponentField (x : Word) : BitVec 8 := x.extractLsb' 23 8

/-- `x[22:0]`, the fraction (R50). -/
def fractionField (x : Word) : BitVec 23 := x.extractLsb' 0 23

/-- A packed value from its sign, exponent field and fraction (R50, R105). -/
def packFields (sign : Bool) (field : BitVec 8) (fraction : BitVec 23) : Word :=
  BitVec.ofBool sign ++ field ++ fraction

/-- A zero-class word: exponent field 0, whatever its fraction and sign (R13, R51). -/
abbrev isZeroClass (x : Word) : Prop := exponentField x = 0#8

/-- `{1, frac} << 7`: the implicit one at bit 30, bits 6 to 0 zero (R56). -/
def mantissaOfFraction (fraction : BitVec 23) : Mantissa :=
  BitVec.ofNat 31 ((2 ^ Config.fracWidth + fraction.toNat) <<< (Config.pointBit - Config.fracWidth))

/-- `{sign, 0x00000000[30:0]}` (R104). -/
def signedZero (sign : Bool) : Word := packFields sign 0#8 0#23

/-- The saturation pattern `{sign, 0x7FFFFFFF[30:0]}` (R104). -/
def saturationPattern (sign : Bool) : Word := packFields sign (BitVec.allOnes 8) (BitVec.allOnes 23)

/-- The UnpackedFloat invariants, with the exponent of a zero (R22): mantissa 0 and exponent -127,
or bit 30 of the mantissa set. -/
abbrev isUnpackedNormal (u : UnpackedFloat) : Prop :=
  (u.mantissa = 0#31 ∧ u.exponent = -127) ∨ u.mantissa.getLsbD Config.pointBit = true

end Sys2Proof.Machine
end

