-- ==== Sys2Proof/Machine/RoundAndPack.lean ====
section
/-!
DEFINITION. RoundAndPack, the block `fp32_rounder_packer` (44_roundandpack.md).
-/

namespace Sys2Proof.Machine

/-- `rounded`, the bits 30 to 7 of the mantissa (R101). -/
def keptBits (mantissa : Mantissa) : Nat := mantissa.toNat >>> Config.roundBits

/-- `remainder`, the bits 6 to 0 of the mantissa (R101). -/
def remainderBits (mantissa : Mantissa) : Nat := mantissa.toNat % 2 ^ Config.roundBits

/-- `rounded1` (R102): at most `2^24`. -/
def roundedOnce (mantissa : Mantissa) : Nat :=
  if roundsUp (keptBits mantissa) (remainderBits mantissa) then keptBits mantissa + 1
  else keptBits mantissa

/-- `rounded2` (R103). -/
def roundedMantissa (mantissa : Mantissa) : Nat :=
  if roundingCarry (roundedOnce mantissa) then roundedOnce mantissa >>> 1 else roundedOnce mantissa

/-- `wexp` (R103): the carry is counted before the range check. -/
def workingExponent (exponent : Int) (mantissa : Mantissa) : Int :=
  if roundingCarry (roundedOnce mantissa) then exponent + 1 else exponent

/-- Step 4 (R104, R105): bias, the range check on the integer, and the assembly; the implicit one,
bit 23 of `rounded2`, is dropped unseen. -/
def packInRange (sign : Bool) (wexp : Int) (rounded2 : Nat) : Word :=
  let biased := wexp + Config.bias
  if biased < 0 then signedZero sign
  else if 255 < biased then saturationPattern sign
  else packFields sign (BitVec.ofNat 8 biased.toNat) (BitVec.ofNat 23 rounded2)

/-- `RoundAndPack(sign, exponent, mantissa)` (R100), computed as written also on triples that break
the UnpackedFloat invariants (R108, D16). -/
def roundAndPack (sign : Bool) (exponent : Int) (mantissa : Mantissa) : Word :=
  packInRange sign (workingExponent exponent mantissa) (roundedMantissa mantissa)

/-- ROUNDANDPACK on the stand-alone block (R100, R109). -/
def execRoundAndPack (sign : Bool) (exponent : Int) (mantissa : Mantissa) (s : State) :
    Host.Outcome State Fault Refusal :=
  .next (s.drivePacker (roundAndPack sign exponent mantissa))

end Sys2Proof.Machine
end

