-- ==== Sys2Proof/Machine/SplitFloat.lean ====
section
/-!
DEFINITION. SplitFloat, the block `fp32_fma_unpacker` (41_splitfloat.md).
-/

namespace Sys2Proof.Machine

/-- `SplitFloat(x)` (R70): exponent field 0 is flushed to a zero that keeps its sign, field 255 is
an ordinary exponent (R73, R57). -/
def splitFloat (x : Word) : UnpackedFloat where
  sign := signOf x
  exponent := ((exponentField x).toNat : Int) - Config.bias
  mantissa := if exponentField x = 0#8 then 0#31 else mantissaOfFraction (fractionField x)

/-- SPLITFLOAT on the stand-alone block: its outputs become `SplitFloat(x)` (R70, R71). -/
def execSplitFloat (x : Word) (s : State) : Host.Outcome State Fault Refusal :=
  .next (s.driveUnpacker (splitFloat x))

end Sys2Proof.Machine
end

