-- ==== Sys2Proof/Machine/Fma.lean ====
section
/-!
DEFINITION. FusedMultiplyAdd, the block `fp32_fma_datapath` (45_fma.md): the other four blocks wired
together, and the clock edge that loads the output register.
-/

namespace Sys2Proof.Machine

/-- The product of the two factors, exact in 62 bits (R122). -/
def product (x y : UnpackedFloat) : WideFloat where
  sign := x.sign ^^ y.sign
  exponent := x.exponent + y.exponent
  mantissa := BitVec.ofNat 62 (x.mantissa.toNat * y.mantissa.toNat)

/-- The one-bit normalization of the product (R123). -/
def normalizeProduct (p : WideFloat) : WideFloat :=
  if productTopBit p.mantissa then
    { p with exponent := p.exponent + 1, mantissa := p.mantissa >>> 1 }
  else p

/-- `cm` (R125): the addend's mantissa with its point moved to bit 60. -/
def prescaled (c : UnpackedFloat) : Acc := c.mantissa.setWidth 62 <<< Config.prescale

/-- `expDiff` (R125). -/
def expDiff (p : WideFloat) (c : UnpackedFloat) : Int := p.exponent - c.exponent

/-- `pa` (R125): the product aligned to the addend when `expDiff ≤ 0`. The shift is a StickyShift
(D8, log entry 8). -/
def alignedProduct (p : WideFloat) (c : UnpackedFloat) : Acc :=
  if 0 < expDiff p c then p.mantissa else stickyShift p.mantissa (-(expDiff p c)).toNat

/-- `ca` (R125): the addend aligned to the product when `expDiff > 0`. -/
def alignedAddend (p : WideFloat) (c : UnpackedFloat) : Acc :=
  if 0 < expDiff p c then stickyShift (prescaled c) (expDiff p c).toNat else prescaled c

/-- `product_larger` (R127), the mantissas compared at the scale of the accumulator (D9). -/
def productLarger (p : WideFloat) (c : UnpackedFloat) : Bool :=
  decide (0 < expDiff p c) ||
    (decide (expDiff p c = 0) && decide ((prescaled c).toNat < p.mantissa.toNat))

/-- The five outcomes of an evaluation (R132). -/
inductive FmaTag where
  | pass | prod | add | subP | subC
  deriving DecidableEq, Repr

/-- The tag of an evaluation from the normalized product and the unpacked addend: the tests in the
listed order, so that a zero product wins over a zero addend (R124, R132, D10, log entry 9). -/
def fmaTag (p : WideFloat) (c : UnpackedFloat) : FmaTag :=
  if p.mantissa = 0#62 then .pass
  else if c.mantissa = 0#31 then .prod
  else if p.sign = c.sign then .add
  else if productLarger p c then .subP
  else .subC

/-- Case ADD (R126): the sum of the aligned mantissas under the alignment target's sign and
exponent. -/
def addAligned (p : WideFloat) (c : UnpackedFloat) : WideFloat where
  sign := if expDiff p c ≤ 0 then c.sign else p.sign
  exponent := if expDiff p c ≤ 0 then c.exponent else p.exponent
  mantissa := BitVec.ofNat 62 ((alignedProduct p c).toNat + (alignedAddend p c).toNat)

/-- Case SUBP (R127): the product is the larger operand. -/
def subtractFromProduct (p : WideFloat) (c : UnpackedFloat) : WideFloat where
  sign := p.sign
  exponent := p.exponent
  mantissa := BitVec.ofNat 62 ((alignedProduct p c).toNat - (alignedAddend p c).toNat)

/-- Case SUBC (R127): the addend is the larger operand. -/
def subtractFromAddend (p : WideFloat) (c : UnpackedFloat) : WideFloat where
  sign := c.sign
  exponent := c.exponent
  mantissa := BitVec.ofNat 62 ((alignedAddend p c).toNat - (alignedProduct p c).toNat)

/-- A wide value through Renormalize (R124, R128). -/
def renormalizeFloat (x : WideFloat) : UnpackedFloat :=
  renormalize x.sign x.exponent x.mantissa

/-- `R`, the triple handed to RoundAndPack (R124, R128). -/
def fmaTriple (p : WideFloat) (c : UnpackedFloat) : UnpackedFloat :=
  match fmaTag p c with
  | .pass => c
  | .prod => renormalizeFloat p
  | .add => renormalizeFloat (addAligned p c)
  | .subP => renormalizeFloat (subtractFromProduct p c)
  | .subC => renormalizeFloat (subtractFromAddend p c)

/-- The normalized product of two packed factors (R121, R122, R123). -/
def fmaProduct (a b : Word) : WideFloat := normalizeProduct (product (splitFloat a) (splitFloat b))

/-- `fma(a, b, c)` (R120): unpack, multiply, combine, renormalize, and round once (R129). -/
def fma (a b c : Word) : Word :=
  let r := fmaTriple (fmaProduct a b) (splitFloat c)
  roundAndPack r.sign r.exponent r.mantissa

/-- FMA: one active clock edge with `a`, `b`, `c` on the input ports; the output register is loaded
with `fma(a, b, c)` and its old value is not read (R31, R174). -/
def execFma (a b c : Word) (s : State) : Host.Outcome State Fault Refusal :=
  .next (s.clockEdge a b c (fma a b c))

end Sys2Proof.Machine
end

