-- ==== Sys2Proof/Machine/Dispatch.lean ====
section
/-!
DEFINITION. The meaning of each operation, one arm per row of spec/opcode_table.json.
-/

namespace Sys2Proof.Machine

def exec (i : Instr) (s : State) : Host.Outcome State Fault Refusal :=
  match i with
  | .splitFloat x => Sys2Proof.Machine.execSplitFloat x s
  | .stickyShift amount value => Sys2Proof.Machine.execStickyShift amount value s
  | .renormalize sign exponent mantissa => Sys2Proof.Machine.execRenormalize sign exponent mantissa s
  | .roundAndPack sign exponent mantissa => Sys2Proof.Machine.execRoundAndPack sign exponent mantissa s
  | .fma a b c => Sys2Proof.Machine.execFma a b c s

end Sys2Proof.Machine
end

