-- ==== Sys2Proof/Machine/Cycle.lean ====
section
/-!
DEFINITION. What the host and a consumer do with the unit: reading the port `result`, wiring it back
to an input (R175), and the running of one scheduled event. `Machine/Step.lean` only calls this.
-/

namespace Sys2Proof.Machine

/-- The bits on the port `result` of a unit with or without its output register (R31): the
register's word, which is `RESULT_RESET` before the first active clock edge (R173); or, without the
register, `fma` of the inputs. -/
def portBits (registered : Bool) (s : State) : Word :=
  if registered then s.result else fma s.a s.b s.c

/-- The value a consumer may read on that port: none before the first active clock edge, where a read
is a fault of the consumer and of nothing in the unit (R33, R170). Reading changes nothing (R43). -/
def outputPort (registered : Bool) (s : State) : Option Word :=
  if registered && !s.loaded then none else some (portBits registered s)

/-- A consumer's read of the port of this unit (`REGISTERED = true`, D1). -/
def readOutputPort (s : State) : Option Word := outputPort Config.registered s

/-- The word one input port samples at the coming edge. A port wired to `result` samples the bits
that are there; before the first edge these are `RESULT_RESET` (R175). -/
def readSource (s : State) : PortSource → Word
  | .word w => w
  | .result flip => portBits Config.registered s ^^^ flip

/-- One active clock edge with the three ports driven or wired to `result` (R175). The register is
loaded at every edge, the first one included (R174: for every `t ≥ 0`). -/
def runWired (a b c : PortSource) (s : State) : Host.Outcome State Fault Refusal :=
  exec (.fma (readSource s a) (readSource s b) (readSource s c)) s

/-- The operation of one presented bundle. -/
def runBundle (bytes : List Byte) (s : State) : Host.Outcome State Fault Refusal :=
  match decode bytes with
  | .ok i => exec i s
  | .error reason => .refused (.notABundle reason)

/-- One scheduled event. -/
def runEvent (event : HostEvent) (s : State) : Host.Outcome State Fault Refusal :=
  match event with
  | .present bytes => runBundle bytes s
  | .wire a b c => runWired a b c s
  | .reset => .next s.resetRegister

/-- An active clock edge with the inputs held as they are: the register is loaded at every edge
(R31, R174; program P4). -/
def runHeld (s : State) : Host.Outcome State Fault Refusal := exec (.fma s.a s.b s.c) s

end Sys2Proof.Machine
end

