-- ==== Sys2Proof/Machine/Step.lean ====
section
/-!
DEFINITION. One step of the machine: the next event of the host's schedule, taken off it, or, when
nothing is scheduled, one more clock edge with the inputs held (R35, R174).
-/

namespace Sys2Proof.Machine

/-- One step. -/
def step (s : State) : Host.Outcome State Fault Refusal :=
  match s.schedule with
  | [] => runHeld s
  | event :: rest => runEvent event { s with schedule := rest }

/-- The host presents the bundle of `nbits` bits `w` at the very next step. -/
def State.withFetchWord (s : State) (nbits w : Nat) : State :=
  s.presentNext (bytesOfBundle (bytesForBits nbits) w)

end Sys2Proof.Machine
end

