-- ==== Sys2Proof/Safety.lean ====
section
/-!
DEFINITION. The terms claims are stated in: what a consistent state is, which schedules run without a
stop, and the exact arithmetic that results are compared with (95_test_vectors.md section 4, run A).
-/

namespace Sys2Proof.Machine

/-- The bits 6 to 0 of a mantissa are 0, as in every SplitFloat output (R72). -/
abbrev lowBitsClear (m : Mantissa) : Prop := m.toNat % 2 ^ Config.roundBits = 0

/-- What holds of every state the machine keeps: a loaded output register shows `fma` of the inputs
sampled at the last edge (R31, R46); the unpacker's and the renormalizer's outputs are in the form
of R22 and R72, a zero of Renormalize is the canonical one (R22), and the renormalizer's exponent
port agrees with its exponent wherever that fits (R52, R95). -/
structure Consistent (s : State) : Prop where
  registerHoldsLastResult : s.loaded = true → s.result = fma s.a s.b s.c
  unpackerNormal : isUnpackedNormal s.unpackerOut
  unpackerLowBits : lowBitsClear s.unpackerOut.mantissa
  unpackerExponent : -127 ≤ s.unpackerOut.exponent ∧ s.unpackerOut.exponent ≤ 128
  renormNormal : isUnpackedNormal s.renormOut
  renormZeroCanonical : s.renormOut.mantissa = 0#31 → s.renormOut = canonicalZero
  renormPort : exponentFitsPort s.renormOut.exponent →
    exponentOfPort s.renormExponentPort = s.renormOut.exponent

/-- A port source that reads no output register. -/
def PortSource.isWord : PortSource → Bool
  | .word _ => true
  | .result _ => false

/-- Every bundle the event presents is a bundle of some format (R53). -/
def eventRuns : HostEvent → Bool
  | .present bytes =>
    match decode bytes with
    | .ok _ => true
    | .error _ => false
  | .wire _ _ _ => true
  | .reset => true

/-- The host's schedule runs without a stop from this state. -/
def runsSafely (s : State) : Bool := s.schedule.all eventRuns

/-- What the host sees to before the coming steps is the same: schedule and input ports. -/
structure SameInputs (s t : State) : Prop where
  schedule : s.schedule = t.schedule
  a : s.a = t.a
  b : s.b = t.b
  c : s.c = t.c

/-- The number a packed value stands for, times `2^149` (R12, R51): 0 for a zero-class word, else
`(2^23 + fraction) * 2^(field - 1)` with its sign. Exponent field 255 is not special. -/
def scaledValue (x : Word) : Int :=
  if exponentField x = 0#8 then 0
  else
    let magnitude : Nat := (2 ^ 23 + (fractionField x).toNat) * 2 ^ ((exponentField x).toNat - 1)
    if signOf x then -(magnitude : Int) else magnitude

/-- The exact `a*b + c`, times `2^298`. -/
def exactSum (a b c : Word) : Int := scaledValue a * scaledValue b + scaledValue c * 2 ^ 149

/-- `n` divided by `2^k` and rounded to the nearest integer, an exact tie to the even one. -/
def divRoundEven (n k : Nat) : Nat :=
  let q := n / 2 ^ k
  let r := n % 2 ^ k
  if 2 ^ k < 2 * r ∨ (2 * r = 2 ^ k ∧ q % 2 = 1) then q + 1 else q

/-- The reference of run A for a nonzero exact value `v / 2^298`: the magnitude rounded to 24
significant bits, to nearest, ties to even, with unbounded exponent, and then the range check and
the packing of R104 and R105. -/
def roundExact (v : Int) : Word :=
  let n := v.natAbs
  let h := n.log2
  let kept := if h < 23 then n * 2 ^ (23 - h) else divRoundEven n (h - 23)
  let significand := if kept = 2 ^ 24 then 2 ^ 23 else kept
  let exponent : Int := if kept = 2 ^ 24 then (h : Int) - 298 + 1 else (h : Int) - 298
  packInRange (decide (v < 0)) exponent significand

end Sys2Proof.Machine
end

