-- ==== Sys2Proof/Certificates/Slice0/Obligations.lean ====
section
/-!
DEFINITION. The statements for the provers. Arithmetic on the right sides is on naturals and
integers, as the rules write it, not in the terms the model computes with.
-/

open Sys2Proof Sys2Proof.Machine

/-! ### Operand bundles (30_encoding.md) -/

/-- Writing the operands of a well-formed operation as its bundle (R53) and reading them back gives
the operation. The bundles are the spec's own notation (D13); length as selector and byte order are
the model's (log entries 3 and 4). -/
def Obligations.DecodeOfEncodeIsTheOperation : Prop :=
  ∀ i : Instr, i.WellFormed → decode (encode i) = .ok i

/-- Bytes that decode are exactly the encoding of a well-formed operation: no two bundles share a
meaning and the padding above UF and WA is 0 (log entries 3 and 4). -/
def Obligations.EncodeOfDecodeIsTheBundle : Prop :=
  ∀ (bytes : List Byte) (i : Instr), decode bytes = .ok i → i.WellFormed ∧ encode i = bytes

/-- Every bit string of a row's width decodes to that row's operation, each operand read from the
bits R53 gives it, the exponents as two's complement (R52). -/
def Obligations.EveryBitStringOfARowDecodes : Prop :=
  ∀ w : Nat,
    (w < 2 ^ 32 → ∃ x : Word, decodeTableWord 32 w = some (.splitFloat x) ∧ x.toNat = w) ∧
    (w < 2 ^ 72 → ∃ value : Acc,
      decodeTableWord 72 w = some (.stickyShift (w / 2 ^ 62) value) ∧ value.toNat = w % 2 ^ 62) ∧
    (w < 2 ^ 73 → ∃ (e : Int) (m : Acc),
      decodeTableWord 73 w = some (.renormalize (decide (w / 2 ^ 72 = 1)) e m) ∧
      e = (if w / 2 ^ 62 % 1024 < 512 then (w / 2 ^ 62 % 1024 : Int)
           else (w / 2 ^ 62 % 1024 : Int) - 1024) ∧
      m.toNat = w % 2 ^ 62) ∧
    (w < 2 ^ 42 → ∃ (e : Int) (m : Mantissa),
      decodeTableWord 42 w = some (.roundAndPack (decide (w / 2 ^ 41 = 1)) e m) ∧
      e = (if w / 2 ^ 31 % 1024 < 512 then (w / 2 ^ 31 % 1024 : Int)
           else (w / 2 ^ 31 % 1024 : Int) - 1024) ∧
      m.toNat = w % 2 ^ 31) ∧
    (w < 2 ^ 96 → ∃ a b c : Word, decodeTableWord 96 w = some (.fma a b c) ∧
      a.toNat = w / 2 ^ 64 ∧ b.toNat = w / 2 ^ 32 % 2 ^ 32 ∧ c.toNat = w % 2 ^ 32)

/-- One bundle of each format, its bits written out from R53, decodes to its operation (the bundles are
the spec's notation, D13; length as selector is the model's, log entries 3 and 4). -/
def Obligations.SampleBundlesDecode : Prop :=
  decodeTableWord 32 0b01000000010010010000111111011011 = some (.splitFloat 0x40490FDB) ∧
  decodeTableWord 72 (4 * 2 ^ 62 + 0x1245) = some (.stickyShift 4 0x1245) ∧
  decodeTableWord 73 (1 * 2 ^ 72 + 0b1111111111 * 2 ^ 62 + 0x0FFFFFFFFFFFFFFF)
    = some (.renormalize true (-1) 0x0FFFFFFFFFFFFFFF) ∧
  decodeTableWord 42 (1 * 2 ^ 41 + 0b1110000001 * 2 ^ 31 + 0x60000000)
    = some (.roundAndPack true (-127) 0x60000000) ∧
  decodeTableWord 96 0x3F800000400000003FC00000 = some (.fma 0x3F800000 0x40000000 0x3FC00000)

/-! ### One step of the machine -/

/-- When the next event presents the bundle of an operation, the step is that operation's meaning on
the state with the event taken off the schedule. -/
def Obligations.StepRunsThePresentedOperation : Prop :=
  ∀ (s : State) (bytes : List Byte) (rest : List HostEvent) (i : Instr),
    s.schedule = .present bytes :: rest → decode bytes = .ok i →
      i.WellFormed ∧ step s = exec i { s with schedule := rest }

/-- The word placed where the next step reads runs as that very step, and the schedule is then what
it was. -/
def Obligations.PlacedWordRunsNext : Prop :=
  ∀ (s : State) (nbits w : Nat) (i : Instr),
    decodeTableWord nbits w = some i → step (s.withFetchWord nbits w) = exec i s

/-- With nothing scheduled the host holds the inputs and the register is loaded with `fma` of them
once more (R31, D3, program P4; that the machine then steps on is the model's, log entry 3). -/
def Obligations.HeldInputsAreEvaluatedAgain : Prop :=
  ∀ s : State, s.schedule = [] →
    step s = .next { s with result := fma s.a s.b s.c, loaded := true }

/-- Feedback (R175): each port wired to `result` samples the register's word, with the bits of its
mask inverted (P6), and the edge evaluates those words; before the first edge too, where the word is
the free `RESULT_RESET` (log entry 1). The wiring event is the model's (log entry 6). -/
def Obligations.WiredPortsSampleTheRegister : Prop :=
  ∀ (s : State) (a b c : PortSource) (rest : List HostEvent),
    s.schedule = .wire a b c :: rest →
      let sampled : PortSource → Word := fun p =>
        match p with
        | .word w => w
        | .result flip => s.result ^^^ flip
      step s = .next { s with
        a := sampled a, b := sampled b, c := sampled c
        result := fma (sampled a) (sampled b) (sampled c)
        loaded := true, schedule := rest }

/-- A feedback chain (R175) advances one step per edge with no stall: an edge with operands driven
and then `n` edges with `c` wired to `result` leave the accumulated value in the register, each
product added to the one before. The wiring event is the model's (log entry 6), loading at every
edge is D3. -/
def Obligations.FeedbackAccumulatesOnePerEdge : Prop :=
  ∀ (factors : List (Word × Word)) (rest : List HostEvent) (s : State),
    s.schedule =
      factors.map (fun f => HostEvent.wire (.word f.1) (.word f.2) (.result 0)) ++ rest →
    ∃ t : State, Host.Core.run Sys2Proof.core factors.length s = .next t ∧
      t.result = factors.foldl (fun acc f => fma f.1 f.2 acc) s.result ∧
      t.schedule = rest ∧
      (factors ≠ [] → readOutputPort t = some t.result)

/-- Reset touches the output register and nothing else, and a consumer then has no value to read (R170,
D4; the event is the model's, log entry 15). -/
def Obligations.ResetEventClearsOnlyTheRegister : Prop :=
  ∀ (s : State) (rest : List HostEvent), s.schedule = .reset :: rest →
    ∃ t : State, step s = .next t ∧
      t = { s with result := t.result, loaded := false, schedule := rest } ∧
      readOutputPort t = none

/-- After reset a consumer has no value to read, and the same edge loads it as in any other state (R33,
R171, D4; the presented event is the model's, log entry 3). -/
def Obligations.ResetStateIsReadyAndHasNoValue : Prop :=
  readOutputPort State.reset = none ∧
  ∀ a b c : Word, ∃ t : State,
    step (State.reset.presentNext (encode (.fma a b c))) = .next t ∧
      readOutputPort t = some (fma a b c)

/-- Bytes of no format are refused by name and padding bits above UF and WA are refused by name (the
model's choice, log entries 3 and 4). -/
def Obligations.OtherBytesAreRefused : Prop :=
  ∀ (s : State) (bytes : List Byte) (rest : List HostEvent),
    s.schedule = .present bytes :: rest →
      ((¬ bytes.length ∈ [4, 6, 9, 10, 12]) →
        step s = .refused (.notABundle (.noFormatOfLength bytes.length))) ∧
      (bytes.length = 6 → 2 ^ 42 ≤ bundleOfBytes bytes →
        step s = .refused (.notABundle (.paddingSet "UF"))) ∧
      (bytes.length = 10 → 2 ^ 73 ≤ bundleOfBytes bytes →
        step s = .refused (.notABundle (.paddingSet "WA")))

/-- No operation raises anything: each answers a next state on every operand and in every state. For
triples of 32-bit words this is R150; beyond them it is the model's choice: a renormalizer exponent
off its port (U3, log entry 5), a triple RoundAndPack may refuse (R108, log entry 12), and operands
that do not fit their ports (log entry 13) are computed too. -/
def Obligations.NoOperationStops : Prop :=
  ∀ (i : Instr) (s : State), ∃ t : State, exec i s = .next t

/-! ### SplitFloat (41_splitfloat.md) -/

/-- SPLITFLOAT: the three outputs of R70 from the bits of the operand, and nothing else changes. -/
def Obligations.SplitFloatGivesTheFieldsOfItsOperand : Prop :=
  ∀ (x : Word) (s : State), ∃ u : UnpackedFloat,
    exec (.splitFloat x) s = .next { s with unpackerOut := u } ∧
    u.sign = decide (x.toNat / 2 ^ 31 = 1) ∧
    u.exponent = ((x.toNat / 2 ^ 23 % 256 : Nat) : Int) - 127 ∧
    u.mantissa.toNat =
      (if x.toNat / 2 ^ 23 % 256 = 0 then 0 else (2 ^ 23 + x.toNat % 2 ^ 23) * 2 ^ 7)

/-- Range and shape of a SplitFloat output (the spec's derivation in R72). -/
def Obligations.SplitFloatOutputIsNormalized : Prop :=
  ∀ x : Word,
    let u := splitFloat x
    u.exponent ≤ 128 ∧ -127 ≤ u.exponent ∧
    (u.exponent = -127 ↔ u.mantissa = 0#31) ∧
    (u.mantissa = 0#31 ∨ (0x40000000 ≤ u.mantissa.toNat ∧ u.mantissa.toNat ≤ 0x7FFFFF80)) ∧
    u.mantissa.toNat % 128 = 0

/-- Packing what was unpacked gives the word back, or its sign bit alone for a zero-class word (the
spec's derivation in R72). -/
def Obligations.RoundAndPackUndoesSplitFloat : Prop :=
  ∀ x : Word,
    let u := splitFloat x
    roundAndPack u.sign u.exponent u.mantissa =
      if x.toNat / 2 ^ 23 % 256 = 0 then x &&& 0x80000000 else x

/-! ### StickyShift (42_stickyshift.md) -/

/-- STICKYSHIFT: the three cases of R80, for every width, and the block's output takes the value for
N = 62 while nothing else changes. -/
def Obligations.StickyShiftFollowsItsThreeCases : Prop :=
  (∀ (N : Nat) (value : BitVec N) (amount : Nat),
    (amount = 0 → stickyShift value amount = value) ∧
    (amount ≠ 0 → N ≤ amount →
      (stickyShift value amount).toNat = if value.toNat ≠ 0 then 1 else 0) ∧
    (amount ≠ 0 → amount < N →
      (stickyShift value amount).toNat =
        (value.toNat / 2 ^ amount) ||| (if value.toNat % 2 ^ amount ≠ 0 then 1 else 0))) ∧
  (∀ (amount : Nat) (value : Acc) (s : State),
    exec (.stickyShift amount value) s
      = .next { s with shifterOut := stickyShift value amount })

/-- One formula covers the three cases (the spec's derivation in R82). -/
def Obligations.StickyShiftHasOneFormula : Prop :=
  ∀ (N : Nat) (value : BitVec N) (amount : Nat),
    (stickyShift value amount).toNat =
      (value.toNat / 2 ^ amount) ||| (if value.toNat % 2 ^ amount ≠ 0 then 1 else 0)

/-- Two sticky shifts compose, a result is 0 only for 0, and no result exceeds its operand (the
spec's derivation in R82). -/
def Obligations.StickyShiftsCompose : Prop :=
  ∀ (N : Nat) (value : BitVec N) (m n : Nat),
    stickyShift (stickyShift value m) n = stickyShift value (m + n) ∧
    (stickyShift value n = 0#N ↔ value = 0#N) ∧
    (stickyShift value n).toNat ≤ value.toNat

/-! ### Renormalize (43_renormalize.md) -/

/-- The leading-zero count of a nonzero accumulator (R91): the highest set bit is `61 - clz`, and a
left shift by `clz` brings it to bit 61. -/
def Obligations.ClzIsTheDistanceOfTheHighestBit : Prop :=
  ∀ m : Acc, m ≠ 0#62 →
    clz m ≤ 61 ∧ clz m = 61 - msb m ∧
    m.getLsbD (msb m) = true ∧ (∀ j, msb m < j → m.getLsbD j = false) ∧
    2 ^ 61 ≤ m.toNat * 2 ^ clz m ∧ m.toNat * 2 ^ clz m < 2 ^ 62

/-- RENORMALIZE: the canonical zero, or the top-aligned mantissa brought down by a sticky shift of 31
with the exponent corrected by `K = 1`; the 10-bit exponent port shows the exponent wherever it
fits, whatever the free value is elsewhere; nothing else changes. The widths and `K` are the spec's
own choice (D6), the free port bits are U3 (log entry 5). -/
def Obligations.RenormalizeNormalizesItsOperand : Prop :=
  ∀ (sign : Bool) (exponent : Int) (m : Acc) (s : State),
    ∃ (u : UnpackedFloat) (port : BitVec 10),
      exec (.renormalize sign exponent m) s
        = .next { s with renormOut := u, renormExponentPort := port } ∧
      (m.toNat = 0 → u = ⟨false, -127, 0#31⟩) ∧
      (∀ n : Nat, 2 ^ 61 ≤ m.toNat * 2 ^ n → m.toNat * 2 ^ n < 2 ^ 62 →
        u.sign = sign ∧ u.exponent = exponent - n + 1 ∧
        u.mantissa.toNat =
          (m.toNat * 2 ^ n / 2 ^ 31) ||| (if m.toNat * 2 ^ n % 2 ^ 31 ≠ 0 then 1 else 0)) ∧
      (-512 ≤ u.exponent → u.exponent ≤ 511 → port.toInt = u.exponent)

/-- Net effect of Renormalize by the index `h` of the highest set bit (the spec's derivation in
R93, with the constants of D6). -/
def Obligations.RenormalizeNetEffect : Prop :=
  ∀ (sign : Bool) (exponent : Int) (m : Acc) (h : Nat),
    2 ^ h ≤ m.toNat → m.toNat < 2 ^ (h + 1) →
      let u := renormalize sign exponent m
      u.sign = sign ∧ u.exponent = exponent + h - 60 ∧
      (30 ≤ h → u.mantissa.toNat = (stickyShift m (h - 30)).toNat) ∧
      (h < 30 → u.mantissa.toNat = m.toNat * 2 ^ (30 - h)) ∧
      2 ^ 30 ≤ u.mantissa.toNat

/-- The accumulator's width does not matter as long as `NORM_SHIFT` and `K` belong to it (the spec's
argument in R94; D6). -/
def Obligations.RenormalizeDoesNotDependOnTheWidth : Prop :=
  ∀ (w : Nat) (sign : Bool) (exponent : Int) (m : Acc), 62 ≤ w →
    renormalizeWide sign exponent (m.setWidth w) = renormalize sign exponent m

/-! ### RoundAndPack (44_roundandpack.md) -/

/-- ROUNDANDPACK: the four steps of R100 to R105 on every operand, and nothing else changes. That the
block also computes them on triples that break the UnpackedFloat invariants is the model's choice
where R108 leaves one (D16, U7, log entry 12); the 31-bit input and the carry at `2^24` are D11 (log
entry 10). -/
def Obligations.RoundAndPackFollowsItsFourSteps : Prop :=
  ∀ (sign : Bool) (exponent : Int) (mantissa : Mantissa) (s : State),
    let rounded : Nat := mantissa.toNat / 2 ^ 7
    let remainder : Nat := mantissa.toNat % 2 ^ 7
    let rounded1 : Nat :=
      if 64 < remainder ∨ (remainder = 64 ∧ rounded % 2 = 1) then rounded + 1 else rounded
    let carry : Bool := decide (rounded1 = 2 ^ 24)
    let rounded2 : Nat := if carry then rounded1 / 2 else rounded1
    let wexp : Int := if carry then exponent + 1 else exponent
    let biased : Int := wexp + 127
    let signBit : Nat := if sign then 2 ^ 31 else 0
    ∃ w : Word, exec (.roundAndPack sign exponent mantissa) s = .next { s with packerOut := w } ∧
      (biased < 0 → w.toNat = signBit) ∧
      (255 < biased → w.toNat = signBit + 0x7FFFFFFF) ∧
      (0 ≤ biased → biased ≤ 255 →
        (w.toNat : Int) = signBit + biased * 2 ^ 23 + (rounded2 % 2 ^ 23 : Nat))

/-- What step 2 chooses is a nearest multiple of 128, the even one at a tie (R102). -/
def Obligations.RoundingIsToNearestEven : Prop :=
  ∀ (m : Mantissa) (q : Int),
    let chosen : Int := roundedOnce m
    |128 * chosen - m.toNat| ≤ |128 * q - m.toNat| ∧
    (q ≠ chosen → |128 * chosen - m.toNat| = |128 * q - m.toNat| → chosen % 2 = 0)

/-- The rounding carry happens exactly when the 24 kept bits are all ones and the increment is taken,
and it leaves `0x800000` (the inference R103 draws). -/
def Obligations.RoundingCarryOnlyFromAllOnes : Prop :=
  ∀ m : Mantissa,
    (roundingCarry (roundedOnce m) = true ↔ 0x7FFFFFC0 ≤ m.toNat) ∧
    roundedOnce m ≤ 2 ^ 24 ∧
    (roundingCarry (roundedOnce m) = true → roundedOnce m = 2 ^ 24 ∧ roundedMantissa m = 2 ^ 23)

/-! ### FusedMultiplyAdd (45_fma.md) -/

/-- FMA: one edge loads the register with what R120 gives, spelled over the four blocks with the
arithmetic on naturals and integers, and changes nothing else but the sampled inputs. The one-bit
normalization test, the case order, the pre-scale, the sticky product shift and the scale of the
comparison are the spec's own choices (D14, D10, D7, D8, D9; log entries 8 and 9). -/
def Obligations.FmaIsTheWiringOfItsBlocks : Prop :=
  ∀ (a b c : Word) (s : State),
    let A := splitFloat a
    let B := splitFloat b
    let C := splitFloat c
    let ps : Bool := A.sign != B.sign
    let pm0 : Nat := A.mantissa.toNat * B.mantissa.toNat
    let pm : Nat := if 2 ^ 61 ≤ pm0 then pm0 / 2 else pm0
    let pe : Int := A.exponent + B.exponent + (if 2 ^ 61 ≤ pm0 then 1 else 0)
    let cm : Nat := C.mantissa.toNat * 2 ^ 30
    let d : Int := pe - C.exponent
    let acc : Nat → Acc := BitVec.ofNat 62
    let cs : Nat := (stickyShift (acc cm) d.toNat).toNat
    let pa : Nat := (stickyShift (acc pm) (-d).toNat).toNat
    ∃ R : UnpackedFloat,
      exec (.fma a b c) s = .next { s with
        a := a, b := b, c := c, loaded := true
        result := roundAndPack R.sign R.exponent R.mantissa } ∧
      (pm = 0 → R = C) ∧
      (pm ≠ 0 → C.mantissa = 0#31 → R = renormalize ps pe (acc pm)) ∧
      (pm ≠ 0 → C.mantissa ≠ 0#31 → ps = C.sign →
        (0 < d → R = renormalize ps pe (acc (pm + cs))) ∧
        (d ≤ 0 → R = renormalize C.sign C.exponent (acc (pa + cm)))) ∧
      (pm ≠ 0 → C.mantissa ≠ 0#31 → ps ≠ C.sign →
        (0 < d → R = renormalize ps pe (acc (pm - cs))) ∧
        (d = 0 → cm < pm → R = renormalize ps pe (acc (pm - cm))) ∧
        (d = 0 → pm ≤ cm → R = renormalize C.sign C.exponent (acc (cm - pm))) ∧
        (d < 0 → R = renormalize C.sign C.exponent (acc (cm - pa))))

/-- The product of R122: sign by exclusive or, exponents added, mantissas multiplied exactly; it is
0 exactly for a zero-class factor and otherwise in `[2^60, 2^62)`, with its low 14 bits clear. -/
def Obligations.ProductIsExact : Prop :=
  ∀ a b : Word,
    let A := splitFloat a
    let B := splitFloat b
    let p := product A B
    p.sign = (A.sign != B.sign) ∧
    p.exponent = A.exponent + B.exponent ∧ -254 ≤ p.exponent ∧ p.exponent ≤ 256 ∧
    p.mantissa.toNat = A.mantissa.toNat * B.mantissa.toNat ∧
    (p.mantissa.toNat = 0 ↔ exponentField a = 0#8 ∨ exponentField b = 0#8) ∧
    (p.mantissa.toNat ≠ 0 → 2 ^ 60 ≤ p.mantissa.toNat) ∧
    p.mantissa.toNat % 2 ^ 14 = 0

/-- The one-bit normalization loses nothing and leaves 0 or a mantissa in `[2^60, 2^61)` (the
spec's derivation in R123, with D14). -/
def Obligations.ProductNormalizationIsExact : Prop :=
  ∀ a b : Word,
    let p0 := product (splitFloat a) (splitFloat b)
    let p := fmaProduct a b
    p.sign = p0.sign ∧
    ((p.mantissa.toNat = p0.mantissa.toNat ∧ p.exponent = p0.exponent) ∨
      (2 * p.mantissa.toNat = p0.mantissa.toNat ∧ p.exponent = p0.exponent + 1)) ∧
    (p.mantissa.toNat = 0 ∨ (2 ^ 60 ≤ p.mantissa.toNat ∧ p.mantissa.toNat < 2 ^ 61)) ∧
    p.mantissa.toNat % 2 ^ 13 = 0 ∧
    -254 ≤ p.exponent ∧ p.exponent ≤ 257

/-- With equal signs the two aligned mantissas are added without loss, under the sign and exponent of
the alignment target (R126). The lower bound `2^60 + 1` needs the product's alignment shift to be
sticky, the spec's own choice (D8, log entry 8). -/
def Obligations.AlignedSumIsExact : Prop :=
  ∀ a b c : Word,
    let p := fmaProduct a b
    let C := splitFloat c
    p.mantissa ≠ 0#62 → C.mantissa ≠ 0#31 → p.sign = C.sign →
      fmaTriple p C = renormalizeFloat (addAligned p C) ∧
      (addAligned p C).mantissa.toNat = (alignedProduct p C).toNat + (alignedAddend p C).toNat ∧
      2 ^ 60 + 1 ≤ (addAligned p C).mantissa.toNat ∧
      (expDiff p C ≤ 0 →
        (addAligned p C).sign = C.sign ∧ (addAligned p C).exponent = C.exponent) ∧
      (0 < expDiff p C →
        (addAligned p C).sign = p.sign ∧ (addAligned p C).exponent = p.exponent)

/-- With different signs the smaller aligned mantissa is subtracted from the larger and the
difference is never negative; it is 0 only at equal exponents and mantissas (the spec's derivation
in R127, with D9). -/
def Obligations.AlignedDifferenceIsExact : Prop :=
  ∀ a b c : Word,
    let p := fmaProduct a b
    let C := splitFloat c
    let pa : Int := (alignedProduct p C).toNat
    let ca : Int := (alignedAddend p C).toNat
    p.mantissa ≠ 0#62 → C.mantissa ≠ 0#31 → p.sign ≠ C.sign →
      (productLarger p C = true →
        fmaTriple p C = renormalizeFloat (subtractFromProduct p C) ∧
        (subtractFromProduct p C).sign = p.sign ∧
        (subtractFromProduct p C).exponent = p.exponent ∧
        ((subtractFromProduct p C).mantissa.toNat : Int) = pa - ca ∧ 0 < pa - ca) ∧
      (productLarger p C = false →
        fmaTriple p C = renormalizeFloat (subtractFromAddend p C) ∧
        (subtractFromAddend p C).sign = C.sign ∧
        (subtractFromAddend p C).exponent = C.exponent ∧
        ((subtractFromAddend p C).mantissa.toNat : Int) = ca - pa ∧
        (ca - pa = 0 ↔ expDiff p C = 0 ∧ p.mantissa = prescaled C))

/-- Flush-to-zero is unconditional (R73): an operand with exponent field 0 unpacks as the zero of its
sign and counts as that zero in every role of `fma`, whatever its fraction. -/
def Obligations.FlushToZeroIsUnconditional : Prop :=
  ∀ a b c : Word,
    let flush : Word → Word := fun x =>
      if x.toNat / 2 ^ 23 % 256 = 0 then x &&& 0x80000000 else x
    (exponentField a = 0#8 → (splitFloat a).mantissa = 0#31) ∧
    splitFloat (flush a) = splitFloat a ∧
    fma (flush a) (flush b) (flush c) = fma a b c

/-- Range saturation through `fma` is decided on the exponent after the rounding carry: 129 and above
give the saturation pattern, -128 and below the signed zero, and everything between is packed with
its exponent field, 0 and 255 included (R136). -/
def Obligations.FmaSaturatesOutsideTheRange : Prop :=
  ∀ a b c : Word,
    let R := fmaTriple (fmaProduct a b) (splitFloat c)
    let w := workingExponent R.exponent R.mantissa
    (129 ≤ w → fma a b c = if R.sign then 0xFFFFFFFF else 0x7FFFFFFF) ∧
    (w ≤ -128 → fma a b c = if R.sign then 0x80000000 else 0#32) ∧
    (-127 ≤ w → w ≤ 128 →
      ((exponentField (fma a b c)).toNat : Int) = w + 127 ∧ signOf (fma a b c) = R.sign)

/-- A zero-class factor passes the addend through: bit for bit, or its sign bit alone when it is
zero-class too (the spec's derivation in R134; the order of the tests is D10, log entry 9). -/
def Obligations.ZeroProductPassesTheAddend : Prop :=
  ∀ a b c : Word, exponentField a = 0#8 ∨ exponentField b = 0#8 →
    fma a b c = if exponentField c = 0#8 then c &&& 0x80000000 else c

/-- A zero-class addend plays no part when the product is nonzero: not its sign, not its fraction
(the spec's derivation in R134). -/
def Obligations.ZeroAddendPlaysNoPart : Prop :=
  ∀ a b c c' : Word, exponentField a ≠ 0#8 → exponentField b ≠ 0#8 →
    exponentField c = 0#8 → exponentField c' = 0#8 → fma a b c = fma a b c'

/-- Exact cancellation of two nonzero operands gives positive zero (the spec's derivation in R134;
example S3). -/
def Obligations.ExactCancellationGivesPositiveZero : Prop :=
  ∀ a b c : Word, exactSum a b c = 0 → scaledValue c ≠ 0 → fma a b c = 0

/-- `fma` is the correctly rounded `a*b + c` of the unit's own number system: the exact value rounded
once to 24 significant bits, to nearest even, then range-checked (run A of 95_test_vectors.md section
4 reports it on samples and argues for it; the sources do not claim it, N72). It rests on the sticky
shift of the product, the spec's own choice (D8, log entry 8; vector F60 tells it apart). -/
def Obligations.FmaIsCorrectlyRounded : Prop :=
  ∀ a b c : Word, exactSum a b c ≠ 0 → fma a b c = roundExact (exactSum a b c)

/-- The two factors are interchangeable (the spec's derivation in R133). -/
def Obligations.FmaCommutesInItsFactors : Prop :=
  ∀ a b c : Word, fma a b c = fma b a c

/-- Multiplying by 1.0 and swapping operand roles does not change the result, except for two
zero-class operands of different signs, where the addend's sign is the result's (the spec's
derivation in R133; 90_conflicts.md C1, D10). -/
def Obligations.AdditiveRolesCommuteButForSignedZeros : Prop :=
  ∀ x y : Word,
    let one : Word := 0x3F800000
    fma x one y = fma one x y ∧ fma y one x = fma one y x ∧
    (¬ (exponentField x = 0#8 ∧ exponentField y = 0#8 ∧ signOf x ≠ signOf y) →
      fma x one y = fma y one x) ∧
    (exponentField x = 0#8 → exponentField y = 0#8 → signOf x ≠ signOf y →
      fma x one y = y &&& 0x80000000 ∧ fma y one x = x &&& 0x80000000 ∧
      fma x one y ≠ fma y one x)

/-- The idioms of R59: multiplication by 1.0, by -1.0 and by zero, and subtraction as addition of the
negated factor (the spec derives them from R120). -/
def Obligations.IdiomsComputeWhatTheySay : Prop :=
  ∀ x y a : Word,
    fma x 0x3F800000 0 = (if exponentField x = 0#8 then 0 else x) ∧
    fma x 0xBF800000 0 = (if exponentField x = 0#8 then 0 else x ^^^ 0x80000000) ∧
    (exponentField x = 0#8 → fma a x 0 = 0 ∧ fma x a 0 = 0) ∧
    fma x 0xBF800000 y = fma (x ^^^ 0x80000000) 0x3F800000 y

/-- The ranges of R178's table, row by row, for every operand triple: operand exponents, `pe0`, `pe`,
`expDiff` and with it the two alignment amounts, `clz` and the exponents into and out of Renormalize
(R95), `R`, `wexp` and `biased`; the exact product, the pre-scaled addend and the sum fit 62 bits
(R130); and the triple handed to RoundAndPack satisfies the UnpackedFloat invariants (R131). These
are the spec's derivations; the 62-bit width and the top bit are its choices (D6, D7, D14, log entry
10). -/
def Obligations.IntermediateValuesStayInRange : Prop :=
  ∀ a b c : Word,
    let A := splitFloat a
    let B := splitFloat b
    let C := splitFloat c
    let p0 := product A B
    let p := fmaProduct a b
    let d := expDiff p C
    let wide : WideFloat :=
      match fmaTag p C with
      | .pass => p
      | .prod => p
      | .add => addAligned p C
      | .subP => subtractFromProduct p C
      | .subC => subtractFromAddend p C
    let R := fmaTriple p C
    let wexp := workingExponent R.exponent R.mantissa
    (∀ X ∈ [A, B, C], -127 ≤ X.exponent ∧ X.exponent ≤ 128 ∧
      (X.mantissa ≠ 0#31 → -126 ≤ X.exponent)) ∧
    (-254 ≤ p0.exponent ∧ p0.exponent ≤ 256) ∧
    A.mantissa.toNat * B.mantissa.toNat < 2 ^ 62 ∧
    (-254 ≤ p.exponent ∧ p.exponent ≤ 257 ∧ (p.mantissa ≠ 0#62 → -252 ≤ p.exponent)) ∧
    C.mantissa.toNat * 2 ^ 30 < 2 ^ 61 ∧
    (p.mantissa ≠ 0#62 → C.mantissa ≠ 0#31 →
      -380 ≤ d ∧ d ≤ 383 ∧ (alignedProduct p C).toNat + (alignedAddend p C).toNat < 2 ^ 62) ∧
    (p.mantissa ≠ 0#62 → R = renormalizeFloat wide ∧
      -252 ≤ wide.exponent ∧ wide.exponent ≤ 257 ∧
      (wide.mantissa ≠ 0#62 → clz wide.mantissa ≤ 61 ∧
        R.exponent = wide.exponent - clz wide.mantissa + 1)) ∧
    (-312 ≤ R.exponent ∧ R.exponent ≤ 258) ∧
    ((R.mantissa = 0#31 ∧ R.exponent = -127) ∨ 2 ^ 30 ≤ R.mantissa.toNat) ∧
    (-312 ≤ wexp ∧ wexp ≤ 259) ∧
    (-185 ≤ wexp + 127 ∧ wexp + 127 ≤ 386)

/-! ### Runs -/

/-- The state after reset is consistent. -/
def Obligations.ResetIsConsistent : Prop := Consistent State.reset

/-- Every step keeps the invariant: a loaded register shows `fma` of the inputs sampled last (R31,
R46), and the blocks' outputs keep their forms (R22, R72, R95). The port and output fields and the
host's events are the model's own (log entries 2, 3, 6 and 15). -/
def Obligations.StepKeepsConsistency : Prop :=
  ∀ s t : State, Consistent s → step s = .next t → Consistent t

/-- A machine runs for ever exactly when every scheduled bundle is one of the five formats: the unit
itself has no way to stop (R150, R57). The one stop is the model's (log entries 3 and 4), and so are
the wiring event, which goes on before the first edge too (DEDUCED, log entry 6), and the reset event
(log entry 15). -/
def Obligations.RunsForeverExactlyWhenScheduleIsSafe : Prop :=
  ∀ s : State,
    runsSafely s = true ↔ ∀ k : Nat, ∃ t : State, Host.Core.run Sys2Proof.core k s = .next t

/-- One result per clock edge, one edge after its operands, in the order they were presented,
whatever the state before (R174; that the register loads at every edge is D3; the schedule is the model's, log
entry 3). -/
def Obligations.LatencyIsOneEdge : Prop :=
  ∀ (earlier : List (Word × Word × Word)) (a b c : Word) (rest : List HostEvent) (s : State),
    s.schedule =
      earlier.map (fun o => HostEvent.present (encode (.fma o.1 o.2.1 o.2.2))) ++
        HostEvent.present (encode (.fma a b c)) :: rest →
    ∃ t : State, Host.Core.run Sys2Proof.core (earlier.length + 1) s = .next t ∧
      t = { s with
        a := a, b := b, c := c, result := fma a b c, loaded := true, schedule := rest } ∧
      readOutputPort t = some (fma a b c)

/-- Results do not depend on history: two runs of the same schedule from the same inputs, with nothing
wired back, keep the same inputs and agree on whether an edge has loaded the register; a consumer
reads the same on both ports, or each register still holds its own old word, and after a first edge
with driven or held inputs the ports read the same (R31, R46, R171). What the register holds while
no edge has loaded it is not compared: the port then has no value to read (R33). The fields that
hold inputs and schedule and the wiring and reset events are the model's (log entries 2, 3, 6 and 15). -/
def Obligations.ResultsDoNotDependOnHistory : Prop :=
  ∀ (k : Nat) (s t s' t' : State), SameInputs s t → s.loaded = t.loaded →
    (∀ a b c, HostEvent.wire a b c ∈ s.schedule →
      a.isWord = true ∧ b.isWord = true ∧ c.isWord = true) →
    Host.Core.run Sys2Proof.core k s = .next s' → Host.Core.run Sys2Proof.core k t = .next t' →
      SameInputs s' t' ∧ s'.loaded = t'.loaded ∧
      (readOutputPort s' = readOutputPort t' ∨
        (s'.result = s.result ∧ t'.result = t.result)) ∧
      (0 < k →
        (s.schedule = [] ∨
          ∃ a b c rest, s.schedule = .present (encode (.fma a b c)) :: rest) →
        readOutputPort s' = readOutputPort t')

/-- An operation of a stand-alone block is no clock edge: the output register, whether it holds a
value, and the datapath's inputs stay as they are (R54; the model's reading, log entry 2). -/
def Obligations.StandAloneBlocksLeaveTheDatapath : Prop :=
  ∀ (i : Instr) (s t : State), (∀ a b c, i ≠ .fma a b c) → exec i s = .next t →
    t.result = s.result ∧ t.loaded = s.loaded ∧ t.a = s.a ∧ t.b = s.b ∧ t.c = s.c ∧
      t.schedule = s.schedule
end

