-- ==== Sys2Proof/Laws/Blocks.lean ====
section
/-!
SUPPORT. One lemma per branch of each block, so that a proof cites the branch instead of unfolding the
block.
-/

namespace Sys2Proof.Machine

theorem splitFloat_of_zeroClass {x : Word} (h : exponentField x = 0#8) :
    splitFloat x = ⟨signOf x, -127, 0#31⟩ := by
  simp [splitFloat, h]

theorem splitFloat_of_nonzero {x : Word} (h : exponentField x ≠ 0#8) :
    splitFloat x =
      ⟨signOf x, ((exponentField x).toNat : Int) - 127, mantissaOfFraction (fractionField x)⟩ := by
  simp [splitFloat, h]

@[simp] theorem stickyShift_amount_zero {N : Nat} (v : BitVec N) : stickyShift v 0 = v := by
  simp [stickyShift]

theorem stickyShift_of_ge {N : Nat} (v : BitVec N) {n : Nat} (h0 : n ≠ 0) (h : N ≤ n) :
    stickyShift v n = if v = 0#N then 0#N else BitVec.ofNat N 1 := by
  simp only [stickyShift, if_neg h0, if_pos h]

theorem stickyShift_of_lt {N : Nat} (v : BitVec N) {n : Nat} (h0 : n ≠ 0) (h : n < N) :
    stickyShift v n = (v >>> n) ||| BitVec.ofNat N (stickyBit v.toNat n).toNat := by
  simp only [stickyShift, if_neg h0, if_neg (Nat.not_le.mpr h)]

@[simp] theorem renormalize_zero (sign : Bool) (e : Int) :
    renormalize sign e 0#62 = canonicalZero := by
  simp [renormalize, renormalizeWide]

theorem renormalize_of_ne_zero {m : Acc} (h : m ≠ 0#62) (sign : Bool) (e : Int) :
    renormalize sign e m =
      ⟨sign, e - (clz m : Int) + 1, (stickyShift (m <<< clz m) 31).setWidth 31⟩ := by
  simp only [renormalize, renormalizeWide, if_neg h, Config.normCorrection, Config.normShift]
  rfl

/-- The exponent port where the exponent fits it (R52). -/
theorem renormExponentBits_of_fits {sign : Bool} {e : Int} {m : Acc}
    (h : exponentFitsPort (renormalize sign e m).exponent) :
    renormExponentBits sign e m = portOfExponent (renormalize sign e m).exponent := by
  simp only [renormExponentBits, if_pos h]

theorem packInRange_underflow {w : Int} (h : w + 127 < 0) (s : Bool) (r : Nat) :
    packInRange s w r = signedZero s := by
  simp [packInRange, h]

theorem packInRange_overflow {w : Int} (h : 255 < w + 127) (s : Bool) (r : Nat) :
    packInRange s w r = saturationPattern s := by
  have h0 : ¬ w + 127 < 0 := by omega
  simp [packInRange, h, h0]

theorem packInRange_of_range {w : Int} (h0 : 0 ≤ w + 127) (h1 : w + 127 ≤ 255) (s : Bool)
    (r : Nat) :
    packInRange s w r = packFields s (BitVec.ofNat 8 (w + 127).toNat) (BitVec.ofNat 23 r) := by
  have h0' : ¬ w + 127 < 0 := by omega
  have h1' : ¬ 255 < w + 127 := by omega
  simp [packInRange, h0', h1']

/-- The triple handed to RoundAndPack, by the tag of the evaluation (R132). -/
theorem fmaTriple_cases (p : WideFloat) (c : UnpackedFloat) :
    (fmaTag p c = .pass ∧ p.mantissa = 0#62 ∧ fmaTriple p c = c) ∨
    (fmaTag p c = .prod ∧ p.mantissa ≠ 0#62 ∧ c.mantissa = 0#31 ∧
      fmaTriple p c = renormalizeFloat p) ∨
    (fmaTag p c = .add ∧ p.mantissa ≠ 0#62 ∧ c.mantissa ≠ 0#31 ∧ p.sign = c.sign ∧
      fmaTriple p c = renormalizeFloat (addAligned p c)) ∨
    (fmaTag p c = .subP ∧ p.mantissa ≠ 0#62 ∧ c.mantissa ≠ 0#31 ∧ p.sign ≠ c.sign ∧
      productLarger p c = true ∧ fmaTriple p c = renormalizeFloat (subtractFromProduct p c)) ∨
    (fmaTag p c = .subC ∧ p.mantissa ≠ 0#62 ∧ c.mantissa ≠ 0#31 ∧ p.sign ≠ c.sign ∧
      productLarger p c = false ∧ fmaTriple p c = renormalizeFloat (subtractFromAddend p c)) := by
  by_cases hp : p.mantissa = 0#62
  · simp [fmaTriple, fmaTag, hp]
  by_cases hc : c.mantissa = 0#31
  · simp [fmaTriple, fmaTag, hp, hc]
  by_cases hs : p.sign = c.sign
  · simp [fmaTriple, fmaTag, hp, hc, hs]
  cases hl : productLarger p c <;> simp [fmaTriple, fmaTag, hp, hc, hs, hl]

end Sys2Proof.Machine
end

