-- ==== Sys2Proof/Laws/Bundle.lean ====
section
/-!
SUPPORT. Bytes and bundles: the two conversions undo each other, and what `decode` can answer.
-/

namespace Sys2Proof

@[simp] theorem bytesOfBundle_length (n w : Nat) : (bytesOfBundle n w).length = n := by
  induction n generalizing w with
  | zero => rfl
  | succ n ih => simp [bytesOfBundle, ih]

theorem bundleOfBytes_lt (bytes : List Byte) : bundleOfBytes bytes < 256 ^ bytes.length := by
  induction bytes with
  | nil => simp [bundleOfBytes]
  | cons b rest ih =>
    have hb : b.toNat < 256 := b.isLt
    simp only [bundleOfBytes, List.length_cons, pow_succ]
    omega

/-- Reading back the low `n` bytes of a number gives it modulo `256^n`. -/
@[simp] theorem bundleOfBytes_bytesOfBundle (n w : Nat) :
    bundleOfBytes (bytesOfBundle n w) = w % 256 ^ n := by
  induction n generalizing w with
  | zero => simp [bytesOfBundle, bundleOfBytes, Nat.mod_one]
  | succ n ih =>
    have hb : (BitVec.ofNat 8 w).toNat = w % 256 := by simp
    simp only [bytesOfBundle, bundleOfBytes, ih, hb]
    rw [pow_succ, Nat.mul_comm (256 ^ n) 256, Nat.mod_mul]

/-- Writing the number a list of bytes stands for gives the list back. -/
@[simp] theorem bytesOfBundle_bundleOfBytes (bytes : List Byte) :
    bytesOfBundle bytes.length (bundleOfBytes bytes) = bytes := by
  induction bytes with
  | nil => rfl
  | cons b rest ih =>
    have hb : b.toNat < 256 := b.isLt
    have hdiv : (b.toNat + 256 * bundleOfBytes rest) / 256 = bundleOfBytes rest := by omega
    have hmod : BitVec.ofNat 8 (b.toNat + 256 * bundleOfBytes rest) = b := by
      apply BitVec.eq_of_toNat_eq
      simp only [BitVec.toNat_ofNat]
      omega
    simp only [List.length_cons, bytesOfBundle, bundleOfBytes, hdiv, hmod, ih]

/-- Everything `decode` can read: the format by the length, the operands from the number. -/
theorem decode_ok_cases {bytes : List Byte} {i : Instr} (h : decode bytes = .ok i) :
    (bytes.length = 4 ∧ i = decodeW32 (bundleOfBytes bytes)) ∨
    (bytes.length = 6 ∧ bundleOfBytes bytes < 2 ^ 42 ∧ i = decodeUF (bundleOfBytes bytes)) ∨
    (bytes.length = 9 ∧ i = decodeSS (bundleOfBytes bytes)) ∨
    (bytes.length = 10 ∧ bundleOfBytes bytes < 2 ^ 73 ∧ i = decodeWA (bundleOfBytes bytes)) ∨
    (bytes.length = 12 ∧ i = decodeOP3 (bundleOfBytes bytes)) := by
  unfold decode at h
  split at h
  · next hl => cases h; exact .inl ⟨hl, rfl⟩
  · next hl =>
    by_cases hw : bundleOfBytes bytes < 2 ^ 42
    · simp only [if_pos hw] at h
      cases h
      exact .inr (.inl ⟨hl, hw, rfl⟩)
    · simp only [if_neg hw] at h
      cases h
  · next hl => cases h; exact .inr (.inr (.inl ⟨hl, rfl⟩))
  · next hl =>
    by_cases hw : bundleOfBytes bytes < 2 ^ 73
    · simp only [if_pos hw] at h
      cases h
      exact .inr (.inr (.inr (.inl ⟨hl, hw, rfl⟩)))
    · simp only [if_neg hw] at h
      cases h
  · next hl => cases h; exact .inr (.inr (.inr (.inr ⟨hl, rfl⟩)))
  · cases h

theorem decode_of_length_4 {bytes : List Byte} (h : bytes.length = 4) :
    decode bytes = .ok (decodeW32 (bundleOfBytes bytes)) := by simp [decode, h]

theorem decode_of_length_6 {bytes : List Byte} (h : bytes.length = 6)
    (hw : bundleOfBytes bytes < 2 ^ 42) :
    decode bytes = .ok (decodeUF (bundleOfBytes bytes)) := by
  simp only [decode, h, if_pos hw]

theorem decode_of_length_9 {bytes : List Byte} (h : bytes.length = 9) :
    decode bytes = .ok (decodeSS (bundleOfBytes bytes)) := by simp [decode, h]

theorem decode_of_length_10 {bytes : List Byte} (h : bytes.length = 10)
    (hw : bundleOfBytes bytes < 2 ^ 73) :
    decode bytes = .ok (decodeWA (bundleOfBytes bytes)) := by
  simp only [decode, h, if_pos hw]

theorem decode_of_length_12 {bytes : List Byte} (h : bytes.length = 12) :
    decode bytes = .ok (decodeOP3 (bundleOfBytes bytes)) := by simp [decode, h]

end Sys2Proof
end

