-- ==== Sys2Proof/Laws/Operands.lean ====
section
/-!
SUPPORT. The fields of packed values: a word is its three fields, and what each operand form holds as a
number.
-/

namespace Sys2Proof.Machine

theorem signOf_eq (x : Word) : signOf x = decide (x.toNat / 2 ^ 31 = 1) := by
  have hx : x.toNat < 2 ^ 32 := x.isLt
  rw [signOf, BitVec.getLsbD, Nat.testBit_eq_decide_div_mod_eq]
  have : x.toNat / 2 ^ 31 % 2 = x.toNat / 2 ^ 31 := by omega
  rw [this]

theorem exponentField_toNat (x : Word) : (exponentField x).toNat = x.toNat / 2 ^ 23 % 256 := by
  simp [exponentField, BitVec.extractLsb'_toNat, Nat.shiftRight_eq_div_pow]

theorem fractionField_toNat (x : Word) : (fractionField x).toNat = x.toNat % 2 ^ 23 := by
  simp [fractionField, BitVec.extractLsb'_toNat]

/-- A packed value as a number. -/
theorem packFields_toNat (s : Bool) (f : BitVec 8) (r : BitVec 23) :
    (packFields s f r).toNat = s.toNat * 2 ^ 31 + f.toNat * 2 ^ 23 + r.toNat := by
  have hf : f.toNat < 2 ^ 8 := f.isLt
  have hr : r.toNat < 2 ^ 23 := r.isLt
  simp only [packFields, BitVec.toNat_append, BitVec.toNat_ofBool]
  rw [← Nat.shiftLeft_add_eq_or_of_lt hr, ← Nat.shiftLeft_add_eq_or_of_lt hf]
  simp only [Nat.shiftLeft_eq]
  ring

@[simp] theorem signOf_packFields (s : Bool) (f : BitVec 8) (r : BitVec 23) :
    signOf (packFields s f r) = s := by
  have hf : f.toNat < 2 ^ 8 := f.isLt
  have hr : r.toNat < 2 ^ 23 := r.isLt
  rw [signOf_eq, packFields_toNat]
  cases s <;> simp <;> omega

@[simp] theorem exponentField_packFields (s : Bool) (f : BitVec 8) (r : BitVec 23) :
    exponentField (packFields s f r) = f := by
  have hf : f.toNat < 2 ^ 8 := f.isLt
  have hr : r.toNat < 2 ^ 23 := r.isLt
  apply BitVec.eq_of_toNat_eq
  rw [exponentField_toNat, packFields_toNat]
  cases s <;> simp <;> omega

@[simp] theorem fractionField_packFields (s : Bool) (f : BitVec 8) (r : BitVec 23) :
    fractionField (packFields s f r) = r := by
  have hf : f.toNat < 2 ^ 8 := f.isLt
  have hr : r.toNat < 2 ^ 23 := r.isLt
  apply BitVec.eq_of_toNat_eq
  rw [fractionField_toNat, packFields_toNat]
  cases s <;> simp <;> omega

/-- A word is its three fields put together. -/
theorem packFields_of_fields (x : Word) :
    packFields (signOf x) (exponentField x) (fractionField x) = x := by
  apply BitVec.eq_of_toNat_eq
  have hx : x.toNat < 2 ^ 32 := x.isLt
  rw [packFields_toNat, signOf_eq, exponentField_toNat, fractionField_toNat]
  rcases Nat.lt_or_ge x.toNat (2 ^ 31) with h | h
  · have h1 : x.toNat / 2 ^ 31 = 0 := by omega
    rw [h1]
    simp
    omega
  · have h1 : x.toNat / 2 ^ 31 = 1 := by omega
    rw [h1]
    simp
    omega

/-- The assembled mantissa (R56), which no width cuts. -/
theorem mantissaOfFraction_toNat (r : BitVec 23) :
    (mantissaOfFraction r).toNat = (2 ^ 23 + r.toNat) * 2 ^ 7 := by
  have hr : r.toNat < 2 ^ 23 := r.isLt
  simp only [mantissaOfFraction, BitVec.toNat_ofNat, Nat.shiftLeft_eq]
  apply Nat.mod_eq_of_lt
  simp
  omega

end Sys2Proof.Machine
end

