-- ==== Sys2Proof/Laws/PerInstr.lean ====
section
/-!
SUPPORT. The family `BundleWidth` of LAWS.json: the encoding of an operation has its format's length
in bytes, and the bundle it writes has no bit above the format's width (R53), so that no bit is lost.
-/

namespace Sys2Proof.Laws.BundleWidth

/-- The width in bits of the operation's format (R53). -/
def formatWidth : Instr → Nat
  | .splitFloat _ => 32
  | .stickyShift _ _ => 72
  | .renormalize _ _ _ => 73
  | .roundAndPack _ _ _ => 42
  | .fma _ _ _ => 96

/-- The bundle fits its format, the format fits its bytes, and the encoding holds exactly it. -/
def Statement (i : Instr) : Prop :=
  i.bundle < 2 ^ formatWidth i ∧ formatWidth i ≤ 8 * i.bundleLength ∧
    (encode i).length = i.bundleLength ∧ bundleOfBytes (encode i) = i.bundle

/-- A bundle below its format's width is read back from its bytes. -/
theorem statement_of_bundle_lt {i : Instr} (h : i.bundle < 2 ^ formatWidth i)
    (hw : formatWidth i ≤ 8 * i.bundleLength) : Statement i := by
  refine ⟨h, hw, by simp [encode], ?_⟩
  have hpow : (256 : Nat) ^ i.bundleLength = 2 ^ (8 * i.bundleLength) := by
    rw [Nat.pow_mul]
  have hle : 2 ^ formatWidth i ≤ 2 ^ (8 * i.bundleLength) := Nat.pow_le_pow_right (by decide) hw
  rw [encode, bundleOfBytes_bytesOfBundle, hpow, Nat.mod_eq_of_lt (by omega)]

theorem splitFloat (x : Word) : Statement (.splitFloat x) :=
  statement_of_bundle_lt x.isLt (by simp [formatWidth, Instr.bundleLength])

theorem stickyShift (amount : Nat) (value : Acc) : Statement (.stickyShift amount value) :=
  statement_of_bundle_lt (BitVec.isLt _) (by simp [formatWidth, Instr.bundleLength])

theorem renormalize (sign : Bool) (exponent : Int) (mantissa : Acc) :
    Statement (.renormalize sign exponent mantissa) :=
  statement_of_bundle_lt (BitVec.isLt _) (by simp [formatWidth, Instr.bundleLength])

theorem roundAndPack (sign : Bool) (exponent : Int) (mantissa : Mantissa) :
    Statement (.roundAndPack sign exponent mantissa) :=
  statement_of_bundle_lt (BitVec.isLt _) (by simp [formatWidth, Instr.bundleLength])

theorem fma (a b c : Word) : Statement (.fma a b c) :=
  statement_of_bundle_lt (BitVec.isLt _) (by simp [formatWidth, Instr.bundleLength])

end Sys2Proof.Laws.BundleWidth
end

