-- ==== Sys2Proof/Laws/State.lean ====
section
/-!
SUPPORT. What each named update of State does to each field: one lemma per field per update.
-/

namespace Sys2Proof.Machine

/-! ### `clockEdge` -/

@[simp] theorem State.clockEdge_result (s : State) (x y z r : Word) :
    (s.clockEdge x y z r).result = r := rfl

@[simp] theorem State.clockEdge_loaded (s : State) (x y z r : Word) :
    (s.clockEdge x y z r).loaded = true := rfl

@[simp] theorem State.clockEdge_a (s : State) (x y z r : Word) :
    (s.clockEdge x y z r).a = x := rfl

@[simp] theorem State.clockEdge_b (s : State) (x y z r : Word) :
    (s.clockEdge x y z r).b = y := rfl

@[simp] theorem State.clockEdge_c (s : State) (x y z r : Word) :
    (s.clockEdge x y z r).c = z := rfl

@[simp] theorem State.clockEdge_unpackerOut (s : State) (x y z r : Word) :
    (s.clockEdge x y z r).unpackerOut = s.unpackerOut := rfl

@[simp] theorem State.clockEdge_shifterOut (s : State) (x y z r : Word) :
    (s.clockEdge x y z r).shifterOut = s.shifterOut := rfl

@[simp] theorem State.clockEdge_renormOut (s : State) (x y z r : Word) :
    (s.clockEdge x y z r).renormOut = s.renormOut := rfl

@[simp] theorem State.clockEdge_renormExponentPort (s : State) (x y z r : Word) :
    (s.clockEdge x y z r).renormExponentPort = s.renormExponentPort := rfl

@[simp] theorem State.clockEdge_packerOut (s : State) (x y z r : Word) :
    (s.clockEdge x y z r).packerOut = s.packerOut := rfl

@[simp] theorem State.clockEdge_schedule (s : State) (x y z r : Word) :
    (s.clockEdge x y z r).schedule = s.schedule := rfl

/-! ### `driveUnpacker` -/

@[simp] theorem State.driveUnpacker_result (s : State) (u : UnpackedFloat) :
    (s.driveUnpacker u).result = s.result := rfl

@[simp] theorem State.driveUnpacker_loaded (s : State) (u : UnpackedFloat) :
    (s.driveUnpacker u).loaded = s.loaded := rfl

@[simp] theorem State.driveUnpacker_a (s : State) (u : UnpackedFloat) :
    (s.driveUnpacker u).a = s.a := rfl

@[simp] theorem State.driveUnpacker_b (s : State) (u : UnpackedFloat) :
    (s.driveUnpacker u).b = s.b := rfl

@[simp] theorem State.driveUnpacker_c (s : State) (u : UnpackedFloat) :
    (s.driveUnpacker u).c = s.c := rfl

@[simp] theorem State.driveUnpacker_unpackerOut (s : State) (u : UnpackedFloat) :
    (s.driveUnpacker u).unpackerOut = u := rfl

@[simp] theorem State.driveUnpacker_shifterOut (s : State) (u : UnpackedFloat) :
    (s.driveUnpacker u).shifterOut = s.shifterOut := rfl

@[simp] theorem State.driveUnpacker_renormOut (s : State) (u : UnpackedFloat) :
    (s.driveUnpacker u).renormOut = s.renormOut := rfl

@[simp] theorem State.driveUnpacker_renormExponentPort (s : State) (u : UnpackedFloat) :
    (s.driveUnpacker u).renormExponentPort = s.renormExponentPort := rfl

@[simp] theorem State.driveUnpacker_packerOut (s : State) (u : UnpackedFloat) :
    (s.driveUnpacker u).packerOut = s.packerOut := rfl

@[simp] theorem State.driveUnpacker_schedule (s : State) (u : UnpackedFloat) :
    (s.driveUnpacker u).schedule = s.schedule := rfl

/-! ### `driveShifter` -/

@[simp] theorem State.driveShifter_result (s : State) (v : Acc) :
    (s.driveShifter v).result = s.result := rfl

@[simp] theorem State.driveShifter_loaded (s : State) (v : Acc) :
    (s.driveShifter v).loaded = s.loaded := rfl

@[simp] theorem State.driveShifter_a (s : State) (v : Acc) :
    (s.driveShifter v).a = s.a := rfl

@[simp] theorem State.driveShifter_b (s : State) (v : Acc) :
    (s.driveShifter v).b = s.b := rfl

@[simp] theorem State.driveShifter_c (s : State) (v : Acc) :
    (s.driveShifter v).c = s.c := rfl

@[simp] theorem State.driveShifter_unpackerOut (s : State) (v : Acc) :
    (s.driveShifter v).unpackerOut = s.unpackerOut := rfl

@[simp] theorem State.driveShifter_shifterOut (s : State) (v : Acc) :
    (s.driveShifter v).shifterOut = v := rfl

@[simp] theorem State.driveShifter_renormOut (s : State) (v : Acc) :
    (s.driveShifter v).renormOut = s.renormOut := rfl

@[simp] theorem State.driveShifter_renormExponentPort (s : State) (v : Acc) :
    (s.driveShifter v).renormExponentPort = s.renormExponentPort := rfl

@[simp] theorem State.driveShifter_packerOut (s : State) (v : Acc) :
    (s.driveShifter v).packerOut = s.packerOut := rfl

@[simp] theorem State.driveShifter_schedule (s : State) (v : Acc) :
    (s.driveShifter v).schedule = s.schedule := rfl

/-! ### `driveRenormalizer` -/

@[simp] theorem State.driveRenormalizer_result (s : State) (u : UnpackedFloat) (p : BitVec 10) :
    (s.driveRenormalizer u p).result = s.result := rfl

@[simp] theorem State.driveRenormalizer_loaded (s : State) (u : UnpackedFloat) (p : BitVec 10) :
    (s.driveRenormalizer u p).loaded = s.loaded := rfl

@[simp] theorem State.driveRenormalizer_a (s : State) (u : UnpackedFloat) (p : BitVec 10) :
    (s.driveRenormalizer u p).a = s.a := rfl

@[simp] theorem State.driveRenormalizer_b (s : State) (u : UnpackedFloat) (p : BitVec 10) :
    (s.driveRenormalizer u p).b = s.b := rfl

@[simp] theorem State.driveRenormalizer_c (s : State) (u : UnpackedFloat) (p : BitVec 10) :
    (s.driveRenormalizer u p).c = s.c := rfl

@[simp] theorem State.driveRenormalizer_unpackerOut (s : State) (u : UnpackedFloat) (p : BitVec 10) :
    (s.driveRenormalizer u p).unpackerOut = s.unpackerOut := rfl

@[simp] theorem State.driveRenormalizer_shifterOut (s : State) (u : UnpackedFloat) (p : BitVec 10) :
    (s.driveRenormalizer u p).shifterOut = s.shifterOut := rfl

@[simp] theorem State.driveRenormalizer_renormOut (s : State) (u : UnpackedFloat) (p : BitVec 10) :
    (s.driveRenormalizer u p).renormOut = u := rfl

@[simp] theorem State.driveRenormalizer_renormExponentPort (s : State) (u : UnpackedFloat) (p : BitVec 10) :
    (s.driveRenormalizer u p).renormExponentPort = p := rfl

@[simp] theorem State.driveRenormalizer_packerOut (s : State) (u : UnpackedFloat) (p : BitVec 10) :
    (s.driveRenormalizer u p).packerOut = s.packerOut := rfl

@[simp] theorem State.driveRenormalizer_schedule (s : State) (u : UnpackedFloat) (p : BitVec 10) :
    (s.driveRenormalizer u p).schedule = s.schedule := rfl

/-! ### `drivePacker` -/

@[simp] theorem State.drivePacker_result (s : State) (w : Word) :
    (s.drivePacker w).result = s.result := rfl

@[simp] theorem State.drivePacker_loaded (s : State) (w : Word) :
    (s.drivePacker w).loaded = s.loaded := rfl

@[simp] theorem State.drivePacker_a (s : State) (w : Word) :
    (s.drivePacker w).a = s.a := rfl

@[simp] theorem State.drivePacker_b (s : State) (w : Word) :
    (s.drivePacker w).b = s.b := rfl

@[simp] theorem State.drivePacker_c (s : State) (w : Word) :
    (s.drivePacker w).c = s.c := rfl

@[simp] theorem State.drivePacker_unpackerOut (s : State) (w : Word) :
    (s.drivePacker w).unpackerOut = s.unpackerOut := rfl

@[simp] theorem State.drivePacker_shifterOut (s : State) (w : Word) :
    (s.drivePacker w).shifterOut = s.shifterOut := rfl

@[simp] theorem State.drivePacker_renormOut (s : State) (w : Word) :
    (s.drivePacker w).renormOut = s.renormOut := rfl

@[simp] theorem State.drivePacker_renormExponentPort (s : State) (w : Word) :
    (s.drivePacker w).renormExponentPort = s.renormExponentPort := rfl

@[simp] theorem State.drivePacker_packerOut (s : State) (w : Word) :
    (s.drivePacker w).packerOut = w := rfl

@[simp] theorem State.drivePacker_schedule (s : State) (w : Word) :
    (s.drivePacker w).schedule = s.schedule := rfl

/-! ### `resetRegister` -/

@[simp] theorem State.resetRegister_result (s : State) :
    (s.resetRegister).result = Config.resultReset := rfl

@[simp] theorem State.resetRegister_loaded (s : State) :
    (s.resetRegister).loaded = false := rfl

@[simp] theorem State.resetRegister_a (s : State) :
    (s.resetRegister).a = s.a := rfl

@[simp] theorem State.resetRegister_b (s : State) :
    (s.resetRegister).b = s.b := rfl

@[simp] theorem State.resetRegister_c (s : State) :
    (s.resetRegister).c = s.c := rfl

@[simp] theorem State.resetRegister_unpackerOut (s : State) :
    (s.resetRegister).unpackerOut = s.unpackerOut := rfl

@[simp] theorem State.resetRegister_shifterOut (s : State) :
    (s.resetRegister).shifterOut = s.shifterOut := rfl

@[simp] theorem State.resetRegister_renormOut (s : State) :
    (s.resetRegister).renormOut = s.renormOut := rfl

@[simp] theorem State.resetRegister_renormExponentPort (s : State) :
    (s.resetRegister).renormExponentPort = s.renormExponentPort := rfl

@[simp] theorem State.resetRegister_packerOut (s : State) :
    (s.resetRegister).packerOut = s.packerOut := rfl

@[simp] theorem State.resetRegister_schedule (s : State) :
    (s.resetRegister).schedule = s.schedule := rfl

/-! ### `presentNext` -/

@[simp] theorem State.presentNext_result (s : State) (bytes : List Byte) :
    (s.presentNext bytes).result = s.result := rfl

@[simp] theorem State.presentNext_loaded (s : State) (bytes : List Byte) :
    (s.presentNext bytes).loaded = s.loaded := rfl

@[simp] theorem State.presentNext_a (s : State) (bytes : List Byte) :
    (s.presentNext bytes).a = s.a := rfl

@[simp] theorem State.presentNext_b (s : State) (bytes : List Byte) :
    (s.presentNext bytes).b = s.b := rfl

@[simp] theorem State.presentNext_c (s : State) (bytes : List Byte) :
    (s.presentNext bytes).c = s.c := rfl

@[simp] theorem State.presentNext_unpackerOut (s : State) (bytes : List Byte) :
    (s.presentNext bytes).unpackerOut = s.unpackerOut := rfl

@[simp] theorem State.presentNext_shifterOut (s : State) (bytes : List Byte) :
    (s.presentNext bytes).shifterOut = s.shifterOut := rfl

@[simp] theorem State.presentNext_renormOut (s : State) (bytes : List Byte) :
    (s.presentNext bytes).renormOut = s.renormOut := rfl

@[simp] theorem State.presentNext_renormExponentPort (s : State) (bytes : List Byte) :
    (s.presentNext bytes).renormExponentPort = s.renormExponentPort := rfl

@[simp] theorem State.presentNext_packerOut (s : State) (bytes : List Byte) :
    (s.presentNext bytes).packerOut = s.packerOut := rfl

@[simp] theorem State.presentNext_schedule (s : State) (bytes : List Byte) :
    (s.presentNext bytes).schedule = .present bytes :: s.schedule := rfl

end Sys2Proof.Machine
end

