-- ==== Sys2Proof/Laws/Step.lean ====
section
/-!
SUPPORT. Everything a meaning, an event and a step can do, and runs one step at a time.
-/

namespace Sys2Proof.Machine

/-- What each operation does to the state; a meaning answers nothing but a next state. -/
theorem exec_cases {i : Instr} {s t : State} (h : exec i s = .next t) :
    (∃ x, i = .splitFloat x ∧ t = s.driveUnpacker (splitFloat x)) ∨
    (∃ n v, i = .stickyShift n v ∧ t = s.driveShifter (stickyShift v n)) ∨
    (∃ g e m, i = .renormalize g e m ∧
      t = s.driveRenormalizer (renormalize g e m) (renormExponentBits g e m)) ∨
    (∃ g e m, i = .roundAndPack g e m ∧ t = s.drivePacker (roundAndPack g e m)) ∨
    (∃ a b c, i = .fma a b c ∧ t = s.clockEdge a b c (fma a b c)) := by
  cases i with
  | splitFloat x => cases h; exact .inl ⟨x, rfl, rfl⟩
  | stickyShift n v => cases h; exact .inr (.inl ⟨n, v, rfl, rfl⟩)
  | renormalize g e m => cases h; exact .inr (.inr (.inl ⟨g, e, m, rfl, rfl⟩))
  | roundAndPack g e m => cases h; exact .inr (.inr (.inr (.inl ⟨g, e, m, rfl, rfl⟩)))
  | fma a b c => cases h; exact .inr (.inr (.inr (.inr ⟨a, b, c, rfl, rfl⟩)))

theorem step_of_empty {s : State} (h : s.schedule = []) : step s = runHeld s := by
  simp [step, h]

theorem step_of_event {s : State} {e : HostEvent} {rest : List HostEvent}
    (h : s.schedule = e :: rest) : step s = runEvent e { s with schedule := rest } := by
  simp [step, h]

/-- What an event that answers a next state has done. -/
theorem runEvent_cases {e : HostEvent} {s t : State} (h : runEvent e s = .next t) :
    (∃ bytes i, e = .present bytes ∧ decode bytes = .ok i ∧ exec i s = .next t) ∨
    (∃ a b c, e = .wire a b c ∧
      exec (.fma (readSource s a) (readSource s b) (readSource s c)) s = .next t) ∨
    (e = .reset ∧ t = s.resetRegister) := by
  cases e with
  | present bytes =>
    simp only [runEvent, runBundle] at h
    split at h
    · next i hi => exact .inl ⟨bytes, i, rfl, hi, h⟩
    · cases h
  | wire a b c => exact .inr (.inl ⟨a, b, c, rfl, h⟩)
  | reset => cases h; exact .inr (.inr ⟨rfl, rfl⟩)

/-- What a step that answers a next state has done. -/
theorem step_cases {s t : State} (h : step s = .next t) :
    (s.schedule = [] ∧ t = s.clockEdge s.a s.b s.c (fma s.a s.b s.c)) ∨
    (∃ e rest, s.schedule = e :: rest ∧ runEvent e { s with schedule := rest } = .next t) := by
  cases hs : s.schedule with
  | nil => rw [step_of_empty hs] at h; cases h; exact .inl ⟨rfl, rfl⟩
  | cons e rest => rw [step_of_event hs] at h; exact .inr ⟨e, rest, rfl, h⟩

/-- A word source gives its word in every state. -/
@[simp] theorem readSource_word (s : State) (w : Word) : readSource s (.word w) = w := rfl

/-- A wired source gives the register's word, whether an edge has loaded it or not. -/
@[simp] theorem readSource_result (s : State) (flip : Word) :
    readSource s (.result flip) = s.result ^^^ flip := rfl

/-- What a consumer may read: the register's word once an edge has loaded it. -/
theorem readOutputPort_eq (s : State) :
    readOutputPort s = if s.loaded = true then some s.result else none := by
  cases h : s.loaded <;> simp [readOutputPort, outputPort, portBits, h]

/-- A wired event always answers the clock edge of the words it samples. -/
theorem runEvent_wire (a b c : PortSource) (s : State) :
    runEvent (.wire a b c) s =
      .next (s.clockEdge (readSource s a) (readSource s b) (readSource s c)
        (fma (readSource s a) (readSource s b) (readSource s c))) := rfl

theorem run_zero (s : State) : Host.Core.run Sys2Proof.core 0 s = .next s := rfl

theorem run_succ_of_next {s t : State} (h : step s = .next t) (k : Nat) :
    Host.Core.run Sys2Proof.core (k + 1) s = Host.Core.run Sys2Proof.core k t := by
  simp only [Host.Core.run, Sys2Proof.core, h]

end Sys2Proof.Machine
end

