-- ==== Sys2Proof/Tests/Slice0.lean ====
section
/-!
SUPPORT. Tests: expected values are copied from the spec (the vector's name stands in each comment) or
written out from the encodings of R53; and, for every obligation with hypotheses, a witness that
something meets them.
-/

namespace Sys2Proof.Machine.Tests

/-- One field of the next state; nothing when the outcome is a stop. -/
def nextField {α : Type} (f : State → α) (o : Host.Outcome State Fault Refusal) : Option α :=
  match o with
  | .next s => some (f s)
  | .fault _ => none
  | .refused _ => none

/-- A refusal, if the outcome is one. -/
def refusalOf (o : Host.Outcome State Fault Refusal) : Option Refusal :=
  match o with
  | .refused r => some r
  | .next _ => none
  | .fault _ => none

/-- The reset state with a schedule. -/
def scheduled (events : List HostEvent) : State := { State.reset with schedule := events }

/-- The reset state after an edge has loaded 5.0 into the register. -/
def loadedFive : State := { State.reset with result := 0x40A00000, loaded := true }

/-! ### Constants: the relations the spec gives between them (R6, R7, R94) -/

theorem test_config_relations :
    Config.roundBits = Config.pointBit - Config.fracWidth ∧
    Config.half = 2 ^ (Config.roundBits - 1) ∧
    Config.accPoint = 2 * Config.pointBit ∧
    Config.mantissaWidth = Config.pointBit + 1 ∧
    Config.accWidth = 2 * Config.pointBit + 2 ∧
    Config.accTop = Config.accWidth - 1 ∧
    Config.normShift Config.accWidth = 31 ∧
    Config.normCorrection Config.accWidth = 1 ∧
    Config.prescale = Config.accPoint - Config.pointBit ∧
    Config.expWidth + Config.fracWidth + 1 = 32 ∧
    Config.portWidth = 10 ∧ Config.amountWidth = 10 := by decide

/-! ### WellFormed refuses an ill-formed term for each check -/

theorem test_amount_too_wide : (Instr.stickyShift 1024 0).wellFormed = false := by decide
theorem test_renormalize_exponent_too_large :
    (Instr.renormalize false 512 0).wellFormed = false := by decide
theorem test_renormalize_exponent_too_small :
    (Instr.renormalize false (-513) 0).wellFormed = false := by decide
theorem test_roundAndPack_exponent_too_large :
    (Instr.roundAndPack false 512 0).wellFormed = false := by decide
theorem test_roundAndPack_exponent_too_small :
    (Instr.roundAndPack false (-513) 0).wellFormed = false := by decide

/-! ### Decoding: bundles written out bit by bit from R53, lowest byte first -/

/-- `0x3A83126F`: sign 0, exponent field 01110101, fraction 00000110001001001101111. -/
theorem test_decode_w32 :
    decode [0b01101111, 0b00010010, 0b10000011, 0b00111010]
      = .ok (.splitFloat 0b00111010100000110001001001101111) := by decide

/-- Amount 383 = 0101111111 in bits 71..62, value with bits 61 and 0 set. -/
theorem test_decode_ss :
    decode [0b00000001, 0, 0, 0, 0, 0, 0, 0b11100000, 0b01011111]
      = .ok (.stickyShift 383 0x2000000000000001) := by decide

/-- Sign 1 at bit 72, exponent -252 = 1100000100 in bits 71..62, mantissa with bit 60 set. -/
theorem test_decode_wa :
    decode [0, 0, 0, 0, 0, 0, 0, 0b00010000, 0b11000001, 0b00000001]
      = .ok (.renormalize true (-252) 0x1000000000000000) := by decide

/-- Sign 0 at bit 41, exponent 128 = 0010000000 in bits 40..31, mantissa `0x7FFFFFC0`. -/
theorem test_decode_uf :
    decode [0b11000000, 0b11111111, 0b11111111, 0b01111111, 0b01000000, 0]
      = .ok (.roundAndPack false 128 0x7FFFFFC0) := by decide

/-- `a = 0x3F800000`, `b = 0x40000000`, `c = 0xBFC00000`, the low word `c` first. -/
theorem test_decode_op3 :
    decode [0, 0, 0b11000000, 0b10111111, 0, 0, 0, 0b01000000, 0, 0, 0b10000000, 0b00111111]
      = .ok (.fma 0x3F800000 0x40000000 0xBFC00000) := by decide

theorem test_decode_other_length :
    decode [0, 0, 0, 0, 0] = .error (.noFormatOfLength 5) := by decide
theorem test_decode_uf_padding :
    decode [0, 0, 0, 0, 0, 0b00000100] = .error (.paddingSet "UF") := by decide
theorem test_decode_wa_padding :
    decode [0, 0, 0, 0, 0, 0, 0, 0, 0, 0b00000010] = .error (.paddingSet "WA") := by decide

/-- The bundle of example S2 as 95_test_vectors.md writes it, `3F800000400000003F800000`. -/
theorem test_encode_op3 : bundleOfBytes (encode (.fma 0x3F800000 0x40000000 0x3F800000))
    = 0x3F800000400000003F800000 := by decide

/-! ### The operations, on the spec's vectors -/

/-- SF5. -/
theorem test_splitFloat_fraction :
    nextField State.unpackerOut (exec (.splitFloat 0x40490FDB) State.reset)
      = some ⟨false, 1, 0x6487ED80⟩ := by decide
/-- SF9: flushed, sign kept. -/
theorem test_splitFloat_flush :
    nextField State.unpackerOut (exec (.splitFloat 0x807FFFFF) State.reset)
      = some ⟨true, -127, 0⟩ := by decide
/-- SS5: bit 0 forced from 0 to 1. -/
theorem test_stickyShift_forced :
    nextField State.shifterOut (exec (.stickyShift 4 0x1245) State.reset) = some 0x125 := by decide
/-- SS12: collapse to the sticky bit. -/
theorem test_stickyShift_collapse :
    nextField State.shifterOut (exec (.stickyShift 383 0x2000000000000000) State.reset)
      = some 1 := by decide
/-- RN10. -/
theorem test_renormalize_sticky :
    nextField State.renormOut (exec (.renormalize false 7 0x0123456789ABCDEF) State.reset)
      = some ⟨false, 3, 0x48D159E3⟩ := by decide
/-- RN3: the canonical zero, on the port as `-127 mod 2^10`. -/
theorem test_renormalize_zero :
    nextField (fun s => (s.renormOut, s.renormExponentPort))
      (exec (.renormalize true 5 0) State.reset) = some (⟨false, -127, 0⟩, 897) := by decide
/-- RP3: a tie at an odd value goes up. -/
theorem test_roundAndPack_tie :
    nextField State.packerOut (exec (.roundAndPack false 0 0x400000C0) State.reset)
      = some 0x3F800002 := by decide
/-- RP15: the rounding carry pushes the exponent into saturation. -/
theorem test_roundAndPack_carry_saturates :
    nextField State.packerOut (exec (.roundAndPack false 128 0x7FFFFFC0) State.reset)
      = some 0x7FFFFFFF := by decide
/-- F60: the sticky bit of the shifted product breaks a tie (D8). -/
theorem test_fma_sticky_product :
    nextField State.result (exec (.fma 0x3F801001 0x3FFFE002 0x4C000000) State.reset)
      = some 0x4C000001 := by decide
/-- F37: a zero product passes a negative zero through (D10). -/
theorem test_fma_passes_negative_zero :
    nextField State.result (exec (.fma 0 0x3F800000 0x80000000) State.reset)
      = some 0x80000000 := by decide

/-- U3: an exponent that no 10-bit port carries; the triple is R90's all the same. -/
theorem test_renormalize_exponent_off_port :
    nextField State.renormOut (exec (.renormalize false (-512) 1) State.reset)
      = some ⟨false, -572, 0x40000000⟩ := by decide

/-! ### Steps -/

/-- Example S3 placed as the first operation after reset, as the table numbers its bits. -/
theorem test_step_runs_placed_word :
    nextField (fun s => (s.result, s.loaded, s.schedule))
      (step (State.reset.withFetchWord 96 0x3F8000003F800000BF800000))
      = some (0, true, []) := by decide
/-- P6, its second edge: `c` wired to `result` with bit 31 inverted. -/
theorem test_step_feedback :
    nextField State.result
      (step { scheduled [.wire (.word 0x3F800001) (.word 0x3F800001) (.result 0x80000000)] with
        result := 0x3F800002, loaded := true }) = some 0x28800000 := by decide
/-- R174, R175: the same wiring at edge 0 samples the free `RESULT_RESET` and the edge is taken. -/
theorem test_step_feedback_before_first_edge :
    nextField (fun s => (s.c, s.loaded))
      (step (scheduled [.wire (.word 0x3F800001) (.word 0x3F800001) (.result 0x80000000)]))
      = some (Config.resultReset ^^^ 0x80000000, true) := rfl
/-- R33: before the first edge a consumer has no value to read. -/
theorem test_no_value_after_reset : readOutputPort State.reset = none := by decide
/-- P4, edge 4: inputs held, the same result again. -/
theorem test_step_held :
    nextField State.result (step { State.reset with a := 0x40000000, b := 0x40000000 })
      = some 0x40800000 := by decide
theorem test_step_refuses_other_bytes :
    refusalOf (step (scheduled [.present [1, 2, 3]]))
      = some (.notABundle (.noFormatOfLength 3)) := by decide
/-- R31: without the output register the port shows `fma` of the inputs. -/
theorem test_port_unregistered :
    outputPort false { State.reset with a := 0x40000000, b := 0x40000000 }
      = some 0x40800000 := by decide

/-! ### Witnesses: the hypotheses of the obligations are met -/

/-- DecodeOfEncodeIsTheOperation, at the ends of each port. -/
theorem witness_wellFormed :
    (Instr.stickyShift 1023 0).WellFormed ∧ (Instr.renormalize true (-512) 1).WellFormed ∧
    (Instr.renormalize true 511 1).WellFormed ∧ (Instr.roundAndPack false (-512) 0).WellFormed ∧
    (Instr.roundAndPack false 511 0).WellFormed ∧ (Instr.fma 0 0 0).WellFormed ∧
    (Instr.splitFloat 0).WellFormed := by decide

/-- EncodeOfDecodeIsTheBundle. -/
theorem witness_decodes : ∃ bytes i, decode bytes = .ok i := ⟨_, _, test_decode_uf⟩

/-- EveryBitStringOfARowDecodes, at the top of each width. -/
theorem witness_top_words :
    decodeTableWord 32 (2 ^ 32 - 1) = some (.splitFloat 0xFFFFFFFF) ∧
    decodeTableWord 72 (2 ^ 72 - 1) = some (.stickyShift 1023 0x3FFFFFFFFFFFFFFF) ∧
    decodeTableWord 73 (2 ^ 73 - 1) = some (.renormalize true (-1) 0x3FFFFFFFFFFFFFFF) ∧
    decodeTableWord 42 (2 ^ 42 - 1) = some (.roundAndPack true (-1) 0x7FFFFFFF) ∧
    decodeTableWord 96 (2 ^ 96 - 1) = some (.fma 0xFFFFFFFF 0xFFFFFFFF 0xFFFFFFFF) := by decide

/-- StepRunsThePresentedOperation. -/
theorem witness_presented :
    ∃ (s : State) (bytes : List Byte) (rest : List HostEvent) (i : Instr),
      s.schedule = .present bytes :: rest ∧ decode bytes = .ok i :=
  ⟨scheduled [.present _], _, [], _, rfl, test_decode_uf⟩

/-- PlacedWordRunsNext. -/
theorem witness_placed_word : decodeTableWord 42 0 = some (.roundAndPack false 0 0) := by decide

/-- HeldInputsAreEvaluatedAgain. -/
theorem witness_nothing_scheduled : State.reset.schedule = [] := rfl

/-- WiredPortsSampleTheRegister: a port wired back, after an edge and before any. -/
theorem witness_wired :
    (∃ (s : State) (f : Word), s.schedule = [.wire (.word 0) (.word 0) (.result f)] ∧
      s.loaded = true) ∧
    (∃ (s : State) (f : Word), s.schedule = [.wire (.word 0) (.word 0) (.result f)] ∧
      s.loaded = false) :=
  ⟨⟨{ scheduled [.wire (.word 0) (.word 0) (.result 7)] with loaded := true }, 7, rfl, rfl⟩,
    ⟨scheduled [.wire (.word 0) (.word 0) (.result 7)], 7, rfl, rfl⟩⟩

/-- FeedbackAccumulatesOnePerEdge: the last two edges of P2. -/
theorem witness_accumulation :
    ∃ s : State, s.schedule =
      [((0x40000000 : Word), (0x40A00000 : Word)), (0x40400000, 0x40C00000)].map
        (fun f => HostEvent.wire (.word f.1) (.word f.2) (.result 0)) ++ [] :=
  ⟨scheduled _, rfl⟩

/-- ResetEventClearsOnlyTheRegister. -/
theorem witness_reset_scheduled : ∃ s : State, s.schedule = [.reset] ∧ s.loaded = true :=
  ⟨{ loadedFive with schedule := [.reset] }, rfl, rfl⟩

/-- OtherBytesAreRefused: lengths beside the five, and the first value past each format. -/
theorem witness_other_bytes :
    (¬ [(0 : Byte), 0, 0, 0, 0].length ∈ [4, 6, 9, 10, 12]) ∧
    (bytesOfBundle 6 (2 ^ 42)).length = 6 ∧ 2 ^ 42 ≤ bundleOfBytes (bytesOfBundle 6 (2 ^ 42)) ∧
    (bytesOfBundle 10 (2 ^ 73)).length = 10 ∧
    2 ^ 73 ≤ bundleOfBytes (bytesOfBundle 10 (2 ^ 73)) := by decide

/-- StickyShiftFollowsItsThreeCases: SS9, SS11 and SS1 sit where the cases meet. -/
theorem witness_sticky_cases :
    stickyShift (0x1234 : Acc) 0 = 0x1234 ∧
    stickyShift (0x2000000000000001 : Acc) 61 = 1 ∧
    stickyShift (0x2000000000000000 : Acc) 62 = 1 ∧ stickyShift (0 : Acc) 62 = 0 := by decide

/-- ClzIsTheDistanceOfTheHighestBit, at both ends of the count. -/
theorem witness_clz : clz (1 : Acc) = 61 ∧ clz (0x2000000000000001 : Acc) = 0 := by decide

/-- RenormalizeNormalizesItsOperand: RN5 and RN1 meet the nonzero clause at both ends of `n`, the
exponent on and off the port. -/
theorem witness_renormalize :
    2 ^ 61 ≤ (1 : Acc).toNat * 2 ^ 61 ∧ (1 : Acc).toNat * 2 ^ 61 < 2 ^ 62 ∧
    2 ^ 61 ≤ (0x2000000000000000 : Acc).toNat * 2 ^ 0 ∧
    (renormalize false (-452) 1).exponent = -512 ∧
    (renormalize false 510 0x2000000000000000).exponent = 511 := by decide

/-- RenormalizeNetEffect: RN13 (`h = 30`), one bit below it, and RN1 (`h = 61`). -/
theorem witness_net_effect :
    (2 ^ 30 ≤ (0x40000000 : Acc).toNat ∧ (0x40000000 : Acc).toNat < 2 ^ 31) ∧
    (2 ^ 29 ≤ (0x3FFFFFFF : Acc).toNat ∧ (0x3FFFFFFF : Acc).toNat < 2 ^ 30) ∧
    (2 ^ 61 ≤ (0x2000000000000000 : Acc).toNat ∧ (0x2000000000000000 : Acc).toNat < 2 ^ 62) := by
  decide

/-- RenormalizeDoesNotDependOnTheWidth, at the least width and at 64 (R94). -/
theorem witness_widths :
    62 ≤ 62 ∧ renormalizeWide false 0 ((1 : Acc).setWidth 64) = ⟨false, -60, 0x40000000⟩ := by
  decide

/-- RoundAndPackFollowsItsFourSteps: RP21, RP19, RP12 and RP13, `biased` -1, 0, 255 and 256. -/
theorem witness_pack_ranges :
    roundAndPack false (-128) 0x40000000 = 0 ∧
    roundAndPack false (-127) 0x60000000 = 0x00400000 ∧
    roundAndPack false 128 0x40000000 = 0x7F800000 ∧
    roundAndPack false 129 0x40000000 = 0x7FFFFFFF := by decide

/-- RoundingIsToNearestEven: two multiples at the same distance (RP2). -/
theorem witness_tie :
    roundedOnce 0x40000040 = 0x800000 ∧
    |128 * (0x800001 : Int) - 0x40000040| = |128 * (0x800000 : Int) - 0x40000040| := by decide

/-- FmaIsTheWiringOfItsBlocks, AlignedSumIsExact, AlignedDifferenceIsExact: F36, F4, F1, F2, F51, F50
and F3 reach the five tags, with `expDiff` 0 and 1. -/
theorem witness_tags :
    fmaTag (fmaProduct 0 0) (splitFloat 0x80000000) = .pass ∧
    fmaTag (fmaProduct 0x40000000 0x40000000) (splitFloat 0) = .prod ∧
    fmaTag (fmaProduct 0x3F800000 0x3F800000) (splitFloat 0x3F800000) = .add ∧
    expDiff (fmaProduct 0x3F800000 0x40000000) (splitFloat 0x3F800000) = 1 ∧
    fmaTag (fmaProduct 0x3F800000 0x3F800000) (splitFloat 0xBF7FFFFF) = .subP ∧
    fmaTag (fmaProduct 0x3F800000 0x3F800000) (splitFloat 0xBF800001) = .subC ∧
    fmaTag (fmaProduct 0x3F800000 0x3F800000) (splitFloat 0xBF800000) = .subC := by decide

/-- The clauses of the same three on negative `expDiff`: F58 adds, F61 subtracts; F53 subtracts at
`expDiff = 0` with the product larger. -/
theorem witness_tags_shifted_product :
    expDiff (fmaProduct 0x3F800000 0x3F800000) (splitFloat 0x4B000000) = -23 ∧
    fmaTag (fmaProduct 0x3F801001 0x3FFFE002) (splitFloat 0xCC000000) = .subC ∧
    expDiff (fmaProduct 0x3F801001 0x3FFFE002) (splitFloat 0xCC000000) = -24 ∧
    fmaTag (fmaProduct 0x3FC00000 0x3FC00000) (splitFloat 0xC0000000) = .subP ∧
    expDiff (fmaProduct 0x3FC00000 0x3FC00000) (splitFloat 0xC0000000) = 0 := by decide

/-- ZeroProductPassesTheAddend, ZeroAddendPlaysNoPart, AdditiveRolesCommuteButForSignedZeros and
IdiomsComputeWhatTheySay: zero-class words of both signs, with and without a fraction. -/
theorem witness_zero_classes :
    exponentField 0 = 0 ∧ exponentField 0x807FFFFF = 0 ∧ exponentField 0x00800000 ≠ 0 ∧
    signOf 0 ≠ signOf 0x80000000 := by decide

/-- FmaSaturatesOutsideTheRange: F16, F27 and F26 have working exponents 129, -128 and -127, F15 128. -/
theorem witness_saturation :
    fma 0x7F000000 0x40800000 0 = 0x7FFFFFFF ∧ fma 0x00800000 0x3E800000 0 = 0 ∧
    fma 0x00C00000 0x3F000000 0 = 0x00400000 ∧ fma 0x7F000000 0x40000000 0 = 0x7F800000 := by decide

/-- ExactCancellationGivesPositiveZero: F3. -/
theorem witness_cancellation :
    exactSum 0x3F800000 0x3F800000 0xBF800000 = 0 ∧ scaledValue 0xBF800000 ≠ 0 := by decide

/-- FmaIsCorrectlyRounded: F60, whose exact value is just above a tie. -/
theorem witness_exact :
    exactSum 0x3F801001 0x3FFFE002 0x4C000000 ≠ 0 ∧
    roundExact (exactSum 0x3F801001 0x3FFFE002 0x4C000000) = 0x4C000001 := by decide +kernel

/-- IntermediateValuesStayInRange: F72 and F73 attain the ends of `expDiff`. -/
theorem witness_extreme_alignment :
    expDiff (fmaProduct 0x7FFFFFFF 0x7FFFFFFF) (splitFloat 0x00800000) = 383 ∧
    expDiff (fmaProduct 0x00800000 0x00800000) (splitFloat 0x7F800000) = -380 := by decide

/-- IntermediateValuesStayInRange: the ends of `pe0`, of `pe` and of `pe` for a nonzero product. -/
theorem witness_extreme_products :
    (product (splitFloat 0) (splitFloat 0)).exponent = -254 ∧
    (product (splitFloat 0x7FFFFFFF) (splitFloat 0x7FFFFFFF)).exponent = 256 ∧
    (fmaProduct 0x7FFFFFFF 0x7FFFFFFF).exponent = 257 ∧
    (fmaProduct 0x00800000 0x00800000).exponent = -252 := by decide

/-- StepKeepsConsistency: a consistent state with a loaded register, which steps. -/
theorem witness_consistent :
    ∃ s t : State, Consistent s ∧ step s = .next t ∧ s.loaded = true :=
  ⟨{ State.reset with result := 0, loaded := true }, _,
    ⟨by decide, by decide, by decide, by decide, by decide, by decide, by decide⟩, rfl, rfl⟩

/-- RunsForeverExactlyWhenScheduleIsSafe, both sides; a first edge wired back is safe. -/
theorem witness_schedules :
    runsSafely (scheduled [.wire (.result 0) (.word 0) (.word 0), .present (encode (.fma 0 0 0))])
      = true ∧
    runsSafely (scheduled [.reset, .present [1, 2, 3]]) = false := by decide

/-- LatencyIsOneEdge: two triples and something after them. -/
theorem witness_presented_triples :
    ∃ s : State, s.schedule =
      [((0x3F800000 : Word), (0x3F800000 : Word), (0x3F800000 : Word))].map
        (fun o => HostEvent.present (encode (.fma o.1 o.2.1 o.2.2))) ++
        HostEvent.present (encode (.fma 0x40000000 0x40000000 0)) :: [.reset] :=
  ⟨scheduled _, rfl⟩

/-- ResultsDoNotDependOnHistory: two loaded states with different words, nothing wired, one edge. -/
theorem witness_histories :
    ∃ s t s' t' : State, SameInputs s t ∧ s.loaded = t.loaded ∧ s.result ≠ t.result ∧
      (∀ a b c, HostEvent.wire a b c ∈ s.schedule →
        a.isWord = true ∧ b.isWord = true ∧ c.isWord = true) ∧
      Host.Core.run Sys2Proof.core 1 s = .next s' ∧ Host.Core.run Sys2Proof.core 1 t = .next t' ∧
      s.schedule = [] :=
  ⟨loadedFive, { loadedFive with result := 1 }, _, _, ⟨rfl, rfl, rfl, rfl⟩, rfl, by decide,
    (fun _ _ _ h => absurd h List.not_mem_nil), rfl, rfl, rfl⟩

/-- StandAloneBlocksLeaveTheDatapath. -/
theorem witness_stand_alone :
    ∃ (i : Instr) (s t : State), (∀ a b c, i ≠ .fma a b c) ∧ exec i s = .next t :=
  ⟨.splitFloat 0, State.reset, _, (fun _ _ _ h => nomatch h), rfl⟩

end Sys2Proof.Machine.Tests
end

section
/-!
SplitFloat (41_splitfloat.md): the three outputs of the block as functions of the operand (R70), and
flush-to-zero in every operand role (R73).
-/

namespace Sys2Proof.Machine

/-! ### The zero class and the zero a word is flushed to -/

/-- The model's test for the zero class (R13, R51) as a test on the word's number. -/
theorem exponentField_eq_zero_iff (x : Word) :
    exponentField x = 0#8 ↔ x.toNat / 2 ^ 23 % 256 = 0 := by
  rw [← BitVec.toNat_inj, exponentField_toNat, BitVec.toNat_ofNat, Nat.zero_mod]

@[simp] theorem signOf_signedZero (sign : Bool) : signOf (signedZero sign) = sign :=
  signOf_packFields sign 0#8 0#23

@[simp] theorem exponentField_signedZero (sign : Bool) : exponentField (signedZero sign) = 0#8 :=
  exponentField_packFields sign 0#8 0#23

/-- Keeping bit 31 alone leaves the zero of the word's sign. -/
theorem and_signBit_eq_signedZero (x : Word) : x &&& 0x80000000 = signedZero (signOf x) := by
  apply BitVec.eq_of_toNat_eq
  calc (x &&& 0x80000000).toNat
      = x.toNat &&& 2 ^ 31 := by simp
    _ = (signOf x).toNat * 2 ^ 31 := Nat.and_two_pow x.toNat 31
    _ = (signedZero (signOf x)).toNat := by simp [signedZero, packFields_toNat]

/-! ### The outputs of the block (R70) -/

@[simp] theorem splitFloat_sign (x : Word) : (splitFloat x).sign = signOf x := rfl

/-- One formula for both branches of R70: the exponent of a zero-class word is `0 - 127`. -/
theorem splitFloat_exponent (x : Word) :
    (splitFloat x).exponent = ((exponentField x).toNat : Int) - 127 := rfl

theorem splitFloat_mantissa_of_zeroClass {x : Word} (h : exponentField x = 0#8) :
    (splitFloat x).mantissa = 0#31 := by
  rw [splitFloat_of_zeroClass h]

theorem splitFloat_mantissa_toNat (x : Word) :
    (splitFloat x).mantissa.toNat =
      if x.toNat / 2 ^ 23 % 256 = 0 then 0 else (2 ^ 23 + x.toNat % 2 ^ 23) * 2 ^ 7 := by
  by_cases h : exponentField x = 0#8
  · rw [splitFloat_mantissa_of_zeroClass h, if_pos ((exponentField_eq_zero_iff x).mp h)]
    rfl
  · rw [splitFloat_of_nonzero h, if_neg (mt (exponentField_eq_zero_iff x).mpr h),
      mantissaOfFraction_toNat, fractionField_toNat]

/-- What SPLITFLOAT does to the state. -/
theorem exec_splitFloat (x : Word) (s : State) :
    exec (.splitFloat x) s = .next (s.driveUnpacker (splitFloat x)) := rfl

/-- Settles O14: the unpacked operand is the witness, and each output has its lemma above. -/
theorem splitFloatGivesTheFieldsOfItsOperand :
    Obligations.SplitFloatGivesTheFieldsOfItsOperand := by
  intro x s
  refine ⟨splitFloat x, exec_splitFloat x s, ?sign, ?exponent, splitFloat_mantissa_toNat x⟩
  case sign => rw [splitFloat_sign, signOf_eq]
  case exponent => rw [splitFloat_exponent, exponentField_toNat]

/-! ### Flush-to-zero (R73) -/

/-- The flushed form of a word: the zero of its sign for a zero-class word, else the word itself. -/
def flushToZero (x : Word) : Word :=
  if x.toNat / 2 ^ 23 % 256 = 0 then x &&& 0x80000000 else x

theorem flushToZero_of_zeroClass {x : Word} (h : exponentField x = 0#8) :
    flushToZero x = signedZero (signOf x) := by
  rw [flushToZero, if_pos ((exponentField_eq_zero_iff x).mp h), and_signBit_eq_signedZero]

theorem flushToZero_of_nonzero {x : Word} (h : exponentField x ≠ 0#8) : flushToZero x = x := by
  rw [flushToZero, if_neg (mt (exponentField_eq_zero_iff x).mpr h)]

/-- The unpacker does not tell a word from its flushed form: both have the same sign, and a
zero-class word shows nothing else. -/
@[simp] theorem splitFloat_flushToZero (x : Word) : splitFloat (flushToZero x) = splitFloat x := by
  by_cases h : exponentField x = 0#8
  · rw [flushToZero_of_zeroClass h, splitFloat_of_zeroClass (exponentField_signedZero _),
      splitFloat_of_zeroClass h, signOf_signedZero]
  · rw [flushToZero_of_nonzero h]

/-- `fma` reads its operands through the unpackers alone (R121). -/
theorem fma_eq_of_splitFloat_eq {a a' b b' c c' : Word} (ha : splitFloat a = splitFloat a')
    (hb : splitFloat b = splitFloat b') (hc : splitFloat c = splitFloat c') :
    fma a b c = fma a' b' c' := by
  simp only [fma, fmaProduct, ha, hb, hc]

/-- Settles O32: flushing is invisible to the unpackers, through which `fma` reads its operands. -/
theorem flushToZeroIsUnconditional : Obligations.FlushToZeroIsUnconditional := by
  intro a b c
  exact ⟨splitFloat_mantissa_of_zeroClass, splitFloat_flushToZero a,
    fma_eq_of_splitFloat_eq (splitFloat_flushToZero a) (splitFloat_flushToZero b)
      (splitFloat_flushToZero c)⟩

end Sys2Proof.Machine
end

section
/-!
StickyShift (42_stickyshift.md): the result of the block as a number in each of the three cases of
R80, for every width, and what the operation does to the state.
-/

namespace Sys2Proof.Machine

/-! ### The sticky bit as a number -/

theorem stickyBit_toNat (value amount : Nat) :
    (stickyBit value amount).toNat = if value % 2 ^ amount ≠ 0 then 1 else 0 := by
  by_cases h : value % 2 ^ amount = 0 <;> simp [stickyBit, h]

/-- A vector with at least one bit holds a flag in its bit 0. -/
theorem ofNat_flag_toNat {N : Nat} (hN : 0 < N) (flag : Bool) :
    (BitVec.ofNat N flag.toNat).toNat = flag.toNat := by
  have fits : flag.toNat < 2 ^ N := flag.toNat_lt.trans_le (Nat.le_pow hN)
  rw [BitVec.toNat_ofNat, Nat.mod_eq_of_lt fits]

/-! ### The cases of R80 as numbers -/

/-- All information collapses to a single flag. A nonzero value has a bit, so at least one bit of
room for the flag. -/
theorem stickyShift_toNat_of_ge {N : Nat} (v : BitVec N) {n : Nat} (h0 : n ≠ 0) (h : N ≤ n) :
    (stickyShift v n).toNat = if v.toNat ≠ 0 then 1 else 0 := by
  rw [stickyShift_of_ge v h0 h]
  by_cases hv : v = 0#N
  · simp [hv]
  · have hv' : v.toNat ≠ 0 := by simpa [← BitVec.toNat_inj] using hv
    have hN : 0 < N := Nat.pos_of_ne_zero fun hN => hv (by subst hN; exact BitVec.eq_nil v)
    rw [if_neg hv, if_pos hv']
    exact ofNat_flag_toNat hN true

/-- The shifted value with bit 0 forced when a dropped bit was set. -/
theorem stickyShift_toNat_of_lt {N : Nat} (v : BitVec N) {n : Nat} (h0 : n ≠ 0) (h : n < N) :
    (stickyShift v n).toNat =
      v.toNat / 2 ^ n ||| if v.toNat % 2 ^ n ≠ 0 then 1 else 0 := by
  have hN : 0 < N := Nat.zero_lt_of_lt h
  rw [stickyShift_of_lt v h0 h, BitVec.toNat_or, BitVec.toNat_ushiftRight,
    Nat.shiftRight_eq_div_pow, ofNat_flag_toNat hN, stickyBit_toNat]

/-! ### The operation -/

/-- What STICKYSHIFT does to the state: the shifter's output is driven and nothing else moves. -/
theorem exec_stickyShift (amount : Nat) (value : Acc) (s : State) :
    exec (.stickyShift amount value) s = .next (s.driveShifter (stickyShift value amount)) := rfl

/-- Settles O17: each case of R80 is a lemma above, and `driveShifter` writes one field. -/
theorem stickyShiftFollowsItsThreeCases : Obligations.StickyShiftFollowsItsThreeCases := by
  refine ⟨fun N value amount => ⟨?unchanged, ?collapsed, ?shifted⟩, exec_stickyShift⟩
  case unchanged =>
    rintro rfl
    exact stickyShift_amount_zero value
  case collapsed => exact stickyShift_toNat_of_ge value
  case shifted => exact stickyShift_toNat_of_lt value

end Sys2Proof.Machine
end

section
/-!
RoundAndPack (44_roundandpack.md): the four steps of R100 as arithmetic on the mantissa's number and
the integer exponent, and step 2 as rounding to nearest, ties to even (R102).
-/

namespace Sys2Proof.Machine

/-! ### Steps 1 and 2: the split and the rounding (R101, R102) -/

/-- The condition of R102's increment. -/
theorem roundsUp_iff (rounded remainder : Nat) :
    roundsUp rounded remainder = true ↔
      64 < remainder ∨ (remainder = 64 ∧ rounded % 2 = 1) := by
  simp only [roundsUp, Bool.or_eq_true, Bool.and_eq_true, decide_eq_true_iff]

/-- Step 2 by division and remainder, without the model's shift and Boolean test. -/
theorem roundedOnce_eq (m : Mantissa) :
    roundedOnce m =
      if 64 < m.toNat % 2 ^ 7 ∨ (m.toNat % 2 ^ 7 = 64 ∧ m.toNat / 2 ^ 7 % 2 = 1) then
        m.toNat / 2 ^ 7 + 1
      else m.toNat / 2 ^ 7 := by
  simp only [roundedOnce, keptBits, remainderBits, roundsUp_iff, Nat.shiftRight_eq_div_pow]

/-- The kept bits are below `2^24`, so the increment reaches `2^24` at most. -/
theorem roundedOnce_le (m : Mantissa) : roundedOnce m ≤ 2 ^ 24 := by
  have hm : m.toNat < 2 ^ 31 := m.isLt
  rw [roundedOnce_eq]
  split <;> omega

/-- What step 2 chooses lies within half a step of the mantissa, and at exactly half a step, the
tie, it is even: the kept bits are chosen up to a remainder of 64, their successor from 64 on. -/
theorem roundedOnce_within_half (m : Mantissa) :
    |128 * (roundedOnce m : Int) - m.toNat| ≤ 64 ∧
    (|128 * (roundedOnce m : Int) - m.toNat| = 64 → (roundedOnce m : Int) % 2 = 0) := by
  rw [roundedOnce_eq]
  split
  case isTrue up =>
    rw [abs_of_nonneg (by omega)]
    omega
  case isFalse keep =>
    rw [abs_of_nonpos (by omega)]
    omega

/-- Two different multiples of 128 are at least 128 apart, so where one is within 64 of `x` the
other is at least 64 away. -/
theorem half_le_distance_of_ne {x c q : Int} (near : |128 * c - x| ≤ 64) (hq : q ≠ c) :
    64 ≤ |128 * q - x| := by
  have apart : 128 ≤ |128 * q - 128 * c| := by
    have : 1 ≤ |q - c| := Int.one_le_abs (sub_ne_zero.mpr hq)
    rw [← mul_sub, abs_mul, abs_of_pos (by decide : (0 : Int) < 128)]
    omega
  have triangle : |128 * q - 128 * c| ≤ |128 * q - x| + |128 * c - x| := by
    rw [abs_sub_comm (128 * c) x]
    exact abs_sub_le (128 * q) x (128 * c)
  omega

/-- Settles O25: the chosen multiple is within 64 of the mantissa and every other at least 64 away,
so another is as near only where both are at 64, the tie. -/
theorem roundingIsToNearestEven : Obligations.RoundingIsToNearestEven := by
  intro m q chosen
  obtain ⟨near, even_at_tie⟩ := roundedOnce_within_half m
  by_cases hq : q = chosen
  · exact ⟨by rw [hq], fun hne => absurd hq hne⟩
  · have far : 64 ≤ |128 * q - m.toNat| := half_le_distance_of_ne near hq
    exact ⟨near.trans far, fun _ tie => even_at_tie (le_antisymm near (tie ▸ far))⟩

/-! ### Step 3: the carry (R103) -/

/-- The test of bit 24 is a comparison, because `rounded1` is at most `2^24`. -/
theorem roundingCarry_roundedOnce (m : Mantissa) :
    roundingCarry (roundedOnce m) = decide (roundedOnce m = 2 ^ 24) := by
  rcases (roundedOnce_le m).lt_or_eq with below | top
  · rw [roundingCarry, Nat.testBit_lt_two_pow below, decide_eq_false below.ne]
  · rw [roundingCarry, top, Nat.testBit_two_pow_self, decide_eq_true rfl]

theorem roundedMantissa_eq (m : Mantissa) :
    roundedMantissa m =
      if decide (roundedOnce m = 2 ^ 24) then roundedOnce m / 2 else roundedOnce m := by
  rw [roundedMantissa, roundingCarry_roundedOnce, Nat.shiftRight_one]

theorem workingExponent_eq (exponent : Int) (m : Mantissa) :
    workingExponent exponent m =
      if decide (roundedOnce m = 2 ^ 24) then exponent + 1 else exponent := by
  rw [workingExponent, roundingCarry_roundedOnce]

/-! ### Step 4: the three ranges as numbers (R104, R105) -/

/-- The weight of the sign bit in a packed word. -/
theorem signBit_eq_ite (sign : Bool) :
    sign.toNat * 2 ^ 31 = if sign then 2 ^ 31 else 0 := by
  cases sign <;> rfl

theorem signedZero_toNat (sign : Bool) :
    (signedZero sign).toNat = if sign then 2 ^ 31 else 0 := by
  rw [signedZero, packFields_toNat, signBit_eq_ite]
  rfl

theorem saturationPattern_toNat (sign : Bool) :
    (saturationPattern sign).toNat = (if sign then 2 ^ 31 else 0) + 0x7FFFFFFF := by
  rw [saturationPattern, packFields_toNat, signBit_eq_ite, Nat.add_assoc]
  rfl

/-- In range nothing is cut off the biased exponent, and bit 23 of `rounded2` is. -/
theorem packInRange_toNat_of_range {wexp : Int} (h0 : 0 ≤ wexp + 127) (h1 : wexp + 127 ≤ 255)
    (sign : Bool) (rounded2 : Nat) :
    ((packInRange sign wexp rounded2).toNat : Int) =
      (if sign then 2 ^ 31 else 0 : Nat) + (wexp + 127) * 2 ^ 23 + (rounded2 % 2 ^ 23 : Nat) := by
  have field : ((BitVec.ofNat 8 (wexp + 127).toNat).toNat : Int) = wexp + 127 := by
    rw [BitVec.toNat_ofNat, Nat.mod_eq_of_lt (by omega), Int.toNat_of_nonneg h0]
  rw [packInRange_of_range h0 h1, packFields_toNat, signBit_eq_ite, Nat.cast_add, Nat.cast_add,
    Nat.cast_mul, field, BitVec.toNat_ofNat]
  rfl

/-! ### The operation -/

/-- What ROUNDANDPACK does to the state: the packer's output is driven and nothing else moves. -/
theorem exec_roundAndPack (sign : Bool) (exponent : Int) (m : Mantissa) (s : State) :
    exec (.roundAndPack sign exponent m) s =
      .next (s.drivePacker (roundAndPack sign exponent m)) := rfl

/-- Settles O24: steps 1 to 3 are the model's `roundedMantissa` and `workingExponent`, and each
range of step 4 has its lemma above. -/
theorem roundAndPackFollowsItsFourSteps : Obligations.RoundAndPackFollowsItsFourSteps := by
  intro sign exponent m s rounded remainder rounded1 carry rounded2 wexp biased signBit
  have step2 : rounded1 = roundedOnce m := (roundedOnce_eq m).symm
  have step3 : rounded2 = roundedMantissa m := by
    rw [roundedMantissa_eq, ← step2]
  have step3' : wexp = workingExponent exponent m := by
    rw [workingExponent_eq, ← step2]
  have packed : roundAndPack sign exponent m = packInRange sign wexp rounded2 := by
    rw [roundAndPack, step3, step3']
  refine ⟨packInRange sign wexp rounded2, ?exec, ?underflow, ?overflow, ?inRange⟩
  case exec => rw [exec_roundAndPack, packed, State.drivePacker]
  case underflow =>
    intro low
    rw [packInRange_underflow low, signedZero_toNat]
  case overflow =>
    intro high
    rw [packInRange_overflow high, saturationPattern_toNat]
  case inRange =>
    intro low high
    exact packInRange_toNat_of_range low high sign rounded2

end Sys2Proof.Machine
end

section
/-!
FusedMultiplyAdd (45_fma.md), the ends of the datapath: the product of the unpacked factors as an
exact number (R122), and the range decision on the packed result (R136).
-/

namespace Sys2Proof.Machine

/-! ### What an unpacked operand can be (R72) -/

/-- An 8-bit field less the bias. -/
theorem splitFloat_exponent_range (x : Word) :
    -127 ≤ (splitFloat x).exponent ∧ (splitFloat x).exponent ≤ 128 := by
  have field_lt : (exponentField x).toNat < 2 ^ 8 := (exponentField x).isLt
  rw [splitFloat_exponent]
  omega

/-- The implicit one of a word outside the zero class is bit 30 of its mantissa. -/
theorem le_splitFloat_mantissa_of_nonzero {x : Word} (h : exponentField x ≠ 0#8) :
    2 ^ 30 ≤ (splitFloat x).mantissa.toNat := by
  rw [splitFloat_of_nonzero h, mantissaOfFraction_toNat]
  omega

theorem splitFloat_mantissa_eq_zero_iff (x : Word) :
    (splitFloat x).mantissa.toNat = 0 ↔ exponentField x = 0#8 := by
  constructor
  · intro zero
    by_contra nonzero
    have := le_splitFloat_mantissa_of_nonzero nonzero
    omega
  · intro zeroClass
    rw [splitFloat_mantissa_of_zeroClass zeroClass]
    rfl

/-- The fraction of a packed word is shorter than the mantissa by the bits that rounding drops. -/
theorem dvd_splitFloat_mantissa (x : Word) : 2 ^ 7 ∣ (splitFloat x).mantissa.toNat := by
  rw [splitFloat_mantissa_toNat]
  split
  · exact dvd_zero _
  · exact dvd_mul_left _ _

/-! ### The product (R122) -/

@[simp] theorem product_sign (x y : UnpackedFloat) : (product x y).sign = (x.sign != y.sign) := rfl

@[simp] theorem product_exponent (x y : UnpackedFloat) :
    (product x y).exponent = x.exponent + y.exponent := rfl

/-- Two 31-bit factors have a 62-bit product, so the accumulator's width cuts nothing. -/
theorem product_mantissa_toNat (x y : UnpackedFloat) :
    (product x y).mantissa.toNat = x.mantissa.toNat * y.mantissa.toNat := by
  have fits : x.mantissa.toNat * y.mantissa.toNat < 2 ^ 31 * 2 ^ 31 :=
    Nat.mul_lt_mul'' x.mantissa.isLt y.mantissa.isLt
  rw [product, BitVec.toNat_ofNat, Nat.mod_eq_of_lt (by omega)]

theorem product_splitFloat_mantissa_eq_zero_iff (a b : Word) :
    (product (splitFloat a) (splitFloat b)).mantissa.toNat = 0 ↔
      exponentField a = 0#8 ∨ exponentField b = 0#8 := by
  rw [product_mantissa_toNat, Nat.mul_eq_zero, splitFloat_mantissa_eq_zero_iff,
    splitFloat_mantissa_eq_zero_iff]

/-- A product of two mantissas with bit 30 set has bit 60 or bit 61 set. -/
theorem le_product_splitFloat_mantissa {a b : Word} (ha : exponentField a ≠ 0#8)
    (hb : exponentField b ≠ 0#8) :
    2 ^ 60 ≤ (product (splitFloat a) (splitFloat b)).mantissa.toNat := by
  rw [product_mantissa_toNat, pow_add 2 30 30]
  exact Nat.mul_le_mul (le_splitFloat_mantissa_of_nonzero ha) (le_splitFloat_mantissa_of_nonzero hb)

/-- The clear low bits of the two factors add up. -/
theorem dvd_product_splitFloat_mantissa (a b : Word) :
    2 ^ 14 ∣ (product (splitFloat a) (splitFloat b)).mantissa.toNat := by
  rw [product_mantissa_toNat, pow_add 2 7 7]
  exact Nat.mul_dvd_mul (dvd_splitFloat_mantissa a) (dvd_splitFloat_mantissa b)

/-- Settles O28: the multiplication is exact, and the product's range, zero and low bits come from
those of the two unpacked factors. -/
theorem productIsExact : Obligations.ProductIsExact := by
  intro a b A B p
  obtain ⟨loA, hiA⟩ : -127 ≤ A.exponent ∧ A.exponent ≤ 128 := splitFloat_exponent_range a
  obtain ⟨loB, hiB⟩ : -127 ≤ B.exponent ∧ B.exponent ≤ 128 := splitFloat_exponent_range b
  have exponent : p.exponent = A.exponent + B.exponent := product_exponent A B
  have zero_iff := product_splitFloat_mantissa_eq_zero_iff a b
  refine ⟨product_sign A B, exponent, by omega, by omega, product_mantissa_toNat A B, zero_iff,
    ?large, Nat.mod_eq_zero_of_dvd (dvd_product_splitFloat_mantissa a b)⟩
  case large =>
    intro nonzero
    obtain ⟨ha, hb⟩ := not_or.mp (mt zero_iff.mpr nonzero)
    exact le_product_splitFloat_mantissa ha hb

/-! ### The range decision (R136) -/

theorem signedZero_eq_ite (sign : Bool) :
    signedZero sign = if sign then 0x80000000 else 0#32 := by
  cases sign <;> rfl

theorem saturationPattern_eq_ite (sign : Bool) :
    saturationPattern sign = if sign then 0xFFFFFFFF else 0x7FFFFFFF := by
  cases sign <;> rfl

/-- In range the 8-bit field holds the biased exponent whole. -/
theorem exponentField_packInRange_of_range {wexp : Int} (h0 : 0 ≤ wexp + 127)
    (h1 : wexp + 127 ≤ 255) (sign : Bool) (rounded2 : Nat) :
    ((exponentField (packInRange sign wexp rounded2)).toNat : Int) = wexp + 127 := by
  rw [packInRange_of_range h0 h1, exponentField_packFields, BitVec.toNat_ofNat,
    Nat.mod_eq_of_lt (by omega), Int.toNat_of_nonneg h0]

theorem signOf_packInRange_of_range {wexp : Int} (h0 : 0 ≤ wexp + 127) (h1 : wexp + 127 ≤ 255)
    (sign : Bool) (rounded2 : Nat) : signOf (packInRange sign wexp rounded2) = sign := by
  rw [packInRange_of_range h0 h1, signOf_packFields]

/-- The last step of `fma` is the range decision on the working exponent, after the rounding carry
(R103, R129). -/
theorem fma_eq_packInRange (a b c : Word) :
    fma a b c =
      packInRange (fmaTriple (fmaProduct a b) (splitFloat c)).sign
        (workingExponent (fmaTriple (fmaProduct a b) (splitFloat c)).exponent
          (fmaTriple (fmaProduct a b) (splitFloat c)).mantissa)
        (roundedMantissa (fmaTriple (fmaProduct a b) (splitFloat c)).mantissa) := rfl

/-- Settles O33: `fma` ends in `packInRange`, and each range of the biased exponent is one of its
branches. -/
theorem fmaSaturatesOutsideTheRange : Obligations.FmaSaturatesOutsideTheRange := by
  intro a b c R w
  have packed : fma a b c = packInRange R.sign w (roundedMantissa R.mantissa) :=
    fma_eq_packInRange a b c
  rw [packed]
  refine ⟨?overflow, ?underflow, ?inRange⟩
  case overflow =>
    intro high
    rw [packInRange_overflow (by omega), saturationPattern_eq_ite]
  case underflow =>
    intro low
    rw [packInRange_underflow (by omega), signedZero_eq_ite]
  case inRange =>
    intro low high
    exact ⟨exponentField_packInRange_of_range (by omega) (by omega) _ _,
      signOf_packInRange_of_range (by omega) (by omega) _ _⟩

end Sys2Proof.Machine
end

section
/-!
No exceptions (60_exceptions.md): each operation is one named update of the state, without a
condition on its operands or on the state.
-/

namespace Sys2Proof.Machine

/-- What RENORMALIZE does to the state: the renormalizer's outputs are driven, the port also where
the exponent does not fit it (U3), and nothing else moves. -/
theorem exec_renormalize (sign : Bool) (exponent : Int) (m : Acc) (s : State) :
    exec (.renormalize sign exponent m) s =
      .next (s.driveRenormalizer (renormalize sign exponent m)
        (renormExponentBits sign exponent m)) := rfl

/-- What FMA does to the state: one active clock edge (R31, R174). -/
theorem exec_fma (a b c : Word) (s : State) :
    exec (.fma a b c) s = .next (s.clockEdge a b c (fma a b c)) := rfl

/-- Settles O13: the update that each operation makes is its next state. -/
theorem noOperationStops : Obligations.NoOperationStops := by
  intro i s
  cases i with
  | splitFloat x => exact ⟨_, exec_splitFloat x s⟩
  | stickyShift amount value => exact ⟨_, exec_stickyShift amount value s⟩
  | renormalize sign exponent m => exact ⟨_, exec_renormalize sign exponent m s⟩
  | roundAndPack sign exponent m => exact ⟨_, exec_roundAndPack sign exponent m s⟩
  | fma a b c => exact ⟨_, exec_fma a b c s⟩

end Sys2Proof.Machine
end

section
/-!
Operand bundles (30_encoding.md): the fields of each format as numbers, and decode and encode as
inverses of each other, format by format (R53, R54).
-/

namespace Sys2Proof

/-! ### Concatenation and fields as arithmetic -/

/-- A concatenation puts its left part above the bits of its right part. -/
theorem append_toNat {n m : Nat} (x : BitVec n) (y : BitVec m) :
    (x ++ y).toNat = x.toNat * 2 ^ m + y.toNat := by
  rw [BitVec.toNat_append, ← Nat.shiftLeft_add_eq_or_of_lt y.isLt, Nat.shiftLeft_eq]

/-- A field of a bundle by division and remainder; the bundle's width cuts nothing below it. -/
theorem extractLsb'_ofNat_toNat {n w : Nat} (h : w < 2 ^ n) (start len : Nat) :
    ((BitVec.ofNat n w).extractLsb' start len).toNat = w / 2 ^ start % 2 ^ len := by
  rw [BitVec.extractLsb'_toNat, BitVec.toNat_ofNat, Nat.mod_eq_of_lt h, Nat.shiftRight_eq_div_pow]

/-- The field that starts at bit 0. -/
theorem extractLsb'_zero_ofNat_toNat {n w : Nat} (h : w < 2 ^ n) (len : Nat) :
    ((BitVec.ofNat n w).extractLsb' 0 len).toNat = w % 2 ^ len := by
  rw [extractLsb'_ofNat_toNat h, pow_zero, Nat.div_one]

/-- The top bit of a bundle is what is left above all its other bits. -/
theorem getLsbD_top_ofNat {n w : Nat} (h : w < 2 ^ (n + 1)) :
    (BitVec.ofNat (n + 1) w).getLsbD n = decide (w / 2 ^ n = 1) := by
  have top : w / 2 ^ n < 2 := Nat.div_lt_of_lt_mul (by rwa [pow_succ] at h)
  rw [BitVec.getLsbD, BitVec.toNat_ofNat, Nat.mod_eq_of_lt h, Nat.testBit_eq_decide_div_mod_eq,
    Nat.mod_eq_of_lt top]

theorem ofBool_top_toNat {n w : Nat} (h : w < 2 ^ (n + 1)) :
    (BitVec.ofBool ((BitVec.ofNat (n + 1) w).getLsbD n)).toNat = w / 2 ^ n := by
  have top : w / 2 ^ n < 2 := Nat.div_lt_of_lt_mul (by rwa [pow_succ] at h)
  rw [getLsbD_top_ofNat h, BitVec.toNat_ofBool]
  by_cases set : w / 2 ^ n = 1
  · rw [decide_eq_true set, set, Bool.toNat_true]
  · rw [decide_eq_false set, Bool.toNat_false]
    generalize w / 2 ^ n = q at top set
    omega

/-- Two's complement on the 10-bit port (R52). -/
theorem exponentOfPort_eq (p : BitVec 10) :
    exponentOfPort p = if p.toNat < 512 then (p.toNat : Int) else (p.toNat : Int) - 1024 := by
  rw [exponentOfPort, BitVec.toInt_eq_toNat_cond]
  split <;> split <;> omega

theorem exponentOfPort_fits (p : BitVec 10) : exponentFitsPort (exponentOfPort p) := by
  have hp : p.toNat < 2 ^ 10 := p.isLt
  rw [exponentOfPort_eq]
  split <;> constructor <;> omega

/-- An exponent that fits the port is read back from it. -/
theorem exponentOfPort_portOfExponent {e : Int} (h : exponentFitsPort e) :
    exponentOfPort (portOfExponent e) = e := by
  obtain ⟨low, high⟩ := h
  exact BitVec.toInt_ofInt_eq_self (by decide) (by omega) (by omega)

/-- Every pattern of the port is the pattern of the exponent it stands for. -/
@[simp] theorem portOfExponent_exponentOfPort (p : BitVec 10) :
    portOfExponent (exponentOfPort p) = p := BitVec.ofInt_toInt

/-! ### Each format read back from the bundle it wrote -/

theorem decodeW32_bundle (x : Word) : decodeW32 (Instr.splitFloat x).bundle = .splitFloat x := by
  rw [decodeW32, Instr.bundle, BitVec.ofNat_toNat, BitVec.setWidth_eq]

theorem decodeSS_bundle {amount : Nat} (h : amountFitsPort amount) (value : Acc) :
    decodeSS (Instr.stickyShift amount value).bundle = .stickyShift amount value := by
  simp only [decodeSS, Instr.bundle, BitVec.ofNat_toNat, BitVec.setWidth_eq]
  rw [BitVec.extractLsb'_append_eq_of_le (by decide),
    BitVec.extractLsb'_append_eq_of_add_le (by decide)]
  simp [Nat.mod_eq_of_lt h]

theorem decodeWA_bundle (sign : Bool) {e : Int} (h : exponentFitsPort e) (m : Acc) :
    decodeWA (Instr.renormalize sign e m).bundle = .renormalize sign e m := by
  simp only [decodeWA, Instr.bundle, BitVec.ofNat_toNat, BitVec.setWidth_eq]
  rw [BitVec.extractLsb'_append_eq_of_le (by decide),
    BitVec.extractLsb'_append_eq_of_add_le (by decide),
    BitVec.extractLsb'_append_eq_of_add_le (by decide), BitVec.getLsbD_append,
    BitVec.getLsbD_append]
  simp [exponentOfPort_portOfExponent h]

theorem decodeUF_bundle (sign : Bool) {e : Int} (h : exponentFitsPort e) (m : Mantissa) :
    decodeUF (Instr.roundAndPack sign e m).bundle = .roundAndPack sign e m := by
  simp only [decodeUF, Instr.bundle, BitVec.ofNat_toNat, BitVec.setWidth_eq]
  rw [BitVec.extractLsb'_append_eq_of_le (by decide),
    BitVec.extractLsb'_append_eq_of_add_le (by decide),
    BitVec.extractLsb'_append_eq_of_add_le (by decide), BitVec.getLsbD_append,
    BitVec.getLsbD_append]
  simp [exponentOfPort_portOfExponent h]

theorem decodeOP3_bundle (a b c : Word) : decodeOP3 (Instr.fma a b c).bundle = .fma a b c := by
  simp only [decodeOP3, Instr.bundle, BitVec.ofNat_toNat, BitVec.setWidth_eq]
  rw [BitVec.extractLsb'_append_eq_of_le (start := 64) (by decide),
    BitVec.extractLsb'_append_eq_of_le (start := 64 - 32) (by decide),
    BitVec.extractLsb'_append_eq_of_le (start := 32) (by decide),
    BitVec.extractLsb'_append_eq_of_add_le (start := 32 - 32) (by decide),
    BitVec.extractLsb'_append_eq_of_add_le (start := 0) (by decide)]
  simp

/-- Settles O1: the length of the encoding selects the operation's own format, no bit of the bundle
is lost in its bytes, and the format reads its fields back. -/
theorem decodeOfEncodeIsTheOperation : Obligations.DecodeOfEncodeIsTheOperation := by
  intro i wf
  cases i with
  | splitFloat x =>
    obtain ⟨-, -, length, bundle⟩ := Laws.BundleWidth.splitFloat x
    rw [decode_of_length_4 length, bundle, decodeW32_bundle]
  | stickyShift amount value =>
    obtain ⟨-, -, length, bundle⟩ := Laws.BundleWidth.stickyShift amount value
    rw [decode_of_length_9 length, bundle, decodeSS_bundle (of_decide_eq_true wf)]
  | renormalize sign e m =>
    obtain ⟨fits, -, length, bundle⟩ := Laws.BundleWidth.renormalize sign e m
    rw [decode_of_length_10 length (bundle ▸ fits), bundle,
      decodeWA_bundle sign (of_decide_eq_true wf)]
  | roundAndPack sign e m =>
    obtain ⟨fits, -, length, bundle⟩ := Laws.BundleWidth.roundAndPack sign e m
    rw [decode_of_length_6 length (bundle ▸ fits), bundle,
      decodeUF_bundle sign (of_decide_eq_true wf)]
  | fma a b c =>
    obtain ⟨-, -, length, bundle⟩ := Laws.BundleWidth.fma a b c
    rw [decode_of_length_12 length, bundle, decodeOP3_bundle]

/-! ### Each bundle written back from the fields it was read into -/

theorem bundle_decodeW32 {w : Nat} (h : w < 2 ^ 32) : (decodeW32 w).bundle = w := by
  rw [decodeW32, Instr.bundle, BitVec.toNat_ofNat, Nat.mod_eq_of_lt h]

theorem bundle_decodeSS {w : Nat} (h : w < 2 ^ 72) : (decodeSS w).bundle = w := by
  simp only [decodeSS, Instr.bundle, append_toNat, extractLsb'_zero_ofNat_toNat h,
    extractLsb'_ofNat_toNat h, BitVec.toNat_ofNat]
  omega

theorem bundle_decodeWA {w : Nat} (h : w < 2 ^ 73) : (decodeWA w).bundle = w := by
  simp only [decodeWA, Instr.bundle, portOfExponent_exponentOfPort, append_toNat,
    ofBool_top_toNat h, extractLsb'_zero_ofNat_toNat h, extractLsb'_ofNat_toNat h]
  omega

theorem bundle_decodeUF {w : Nat} (h : w < 2 ^ 42) : (decodeUF w).bundle = w := by
  simp only [decodeUF, Instr.bundle, portOfExponent_exponentOfPort, append_toNat,
    ofBool_top_toNat h, extractLsb'_zero_ofNat_toNat h, extractLsb'_ofNat_toNat h]
  omega

theorem bundle_decodeOP3 {w : Nat} (h : w < 2 ^ 96) : (decodeOP3 w).bundle = w := by
  simp only [decodeOP3, Instr.bundle, append_toNat, extractLsb'_zero_ofNat_toNat h,
    extractLsb'_ofNat_toNat h]
  omega

/-- An operation that has the length and the number of some bytes is encoded as those bytes. -/
theorem encode_eq_of_bundle {bytes : List Byte} {i : Instr} (length : bytes.length = i.bundleLength)
    (bundle : i.bundle = bundleOfBytes bytes) : encode i = bytes := by
  rw [encode, bundle, ← length, bytesOfBundle_bundleOfBytes]

/-- Settles O2: each format that `decode` can answer writes back the bundle it was read from. -/
theorem encodeOfDecodeIsTheBundle : Obligations.EncodeOfDecodeIsTheBundle := by
  intro bytes i h
  have fits := bundleOfBytes_lt bytes
  rcases decode_ok_cases h with
    ⟨length, rfl⟩ | ⟨length, padding, rfl⟩ | ⟨length, rfl⟩ | ⟨length, padding, rfl⟩ | ⟨length, rfl⟩
  case inl =>
    exact ⟨rfl, encode_eq_of_bundle length (bundle_decodeW32 (by simpa [length] using fits))⟩
  case inr.inl =>
    exact ⟨decide_eq_true (exponentOfPort_fits _),
      encode_eq_of_bundle length (bundle_decodeUF padding)⟩
  case inr.inr.inl =>
    exact ⟨decide_eq_true (BitVec.isLt _),
      encode_eq_of_bundle length (bundle_decodeSS (by simpa [length] using fits))⟩
  case inr.inr.inr.inl =>
    exact ⟨decide_eq_true (exponentOfPort_fits _),
      encode_eq_of_bundle length (bundle_decodeWA padding)⟩
  case inr.inr.inr.inr =>
    exact ⟨rfl, encode_eq_of_bundle length (bundle_decodeOP3 (by simpa [length] using fits))⟩

/-! ### Table words -/

theorem decodeTableWord_32 {w : Nat} (h : w < 2 ^ 32) :
    decodeTableWord 32 w = some (decodeW32 w) := by
  simp only [decodeTableWord, bytesForBits,
    decode_of_length_4 (bytesOfBundle_length 4 w), bundleOfBytes_bytesOfBundle]
  rw [Nat.mod_eq_of_lt (by omega)]

theorem decodeTableWord_72 {w : Nat} (h : w < 2 ^ 72) :
    decodeTableWord 72 w = some (decodeSS w) := by
  simp only [decodeTableWord, bytesForBits,
    decode_of_length_9 (bytesOfBundle_length 9 w), bundleOfBytes_bytesOfBundle]
  rw [Nat.mod_eq_of_lt (by omega)]

theorem decodeTableWord_73 {w : Nat} (h : w < 2 ^ 73) :
    decodeTableWord 73 w = some (decodeWA w) := by
  have whole : bundleOfBytes (bytesOfBundle 10 w) = w := by
    rw [bundleOfBytes_bytesOfBundle, Nat.mod_eq_of_lt (by omega)]
  simp only [decodeTableWord, bytesForBits,
    decode_of_length_10 (bytesOfBundle_length 10 w) (whole.symm ▸ h), whole]

theorem decodeTableWord_42 {w : Nat} (h : w < 2 ^ 42) :
    decodeTableWord 42 w = some (decodeUF w) := by
  have whole : bundleOfBytes (bytesOfBundle 6 w) = w := by
    rw [bundleOfBytes_bytesOfBundle, Nat.mod_eq_of_lt (by omega)]
  simp only [decodeTableWord, bytesForBits,
    decode_of_length_6 (bytesOfBundle_length 6 w) (whole.symm ▸ h), whole]

theorem decodeTableWord_96 {w : Nat} (h : w < 2 ^ 96) :
    decodeTableWord 96 w = some (decodeOP3 w) := by
  simp only [decodeTableWord, bytesForBits,
    decode_of_length_12 (bytesOfBundle_length 12 w), bundleOfBytes_bytesOfBundle]
  rw [Nat.mod_eq_of_lt (by omega)]

/-- A 10-bit field read as an exponent (R52). -/
theorem exponentOfPort_field {n w : Nat} (h : w < 2 ^ n) (start : Nat) :
    exponentOfPort ((BitVec.ofNat n w).extractLsb' start 10) =
      if w / 2 ^ start % 1024 < 512 then (w / 2 ^ start % 1024 : Int)
      else (w / 2 ^ start % 1024 : Int) - 1024 := by
  rw [exponentOfPort_eq, extractLsb'_ofNat_toNat h]
  push_cast
  rfl

/-- Settles O3: each table word is decoded by its own format, whose fields are quotients and
remainders of the word. -/
theorem everyBitStringOfARowDecodes : Obligations.EveryBitStringOfARowDecodes := by
  intro w
  refine ⟨fun h => ?w32, fun h => ?ss, fun h => ?wa, fun h => ?uf, fun h => ?op3⟩
  case w32 =>
    exact ⟨_, decodeTableWord_32 h, by rw [BitVec.toNat_ofNat, Nat.mod_eq_of_lt h]⟩
  case ss =>
    have amount : w / 2 ^ 62 % 2 ^ 10 = w / 2 ^ 62 := by omega
    refine ⟨(BitVec.ofNat 72 w).extractLsb' 0 62, ?_, ?_⟩
    · rw [decodeTableWord_72 h, decodeSS, extractLsb'_ofNat_toNat h, amount]
    · exact extractLsb'_zero_ofNat_toNat h _
  case wa =>
    refine ⟨_, (BitVec.ofNat 73 w).extractLsb' 0 62, ?_, exponentOfPort_field h 62, ?_⟩
    · rw [decodeTableWord_73 h, decodeWA, getLsbD_top_ofNat h]
    · exact extractLsb'_zero_ofNat_toNat h _
  case uf =>
    refine ⟨_, (BitVec.ofNat 42 w).extractLsb' 0 31, ?_, exponentOfPort_field h 31, ?_⟩
    · rw [decodeTableWord_42 h, decodeUF, getLsbD_top_ofNat h]
    · exact extractLsb'_zero_ofNat_toNat h _
  case op3 =>
    refine ⟨_, _, _, decodeTableWord_96 h, ?_, extractLsb'_ofNat_toNat h 32 32, ?_⟩
    · rw [extractLsb'_ofNat_toNat h]
      omega
    · exact extractLsb'_zero_ofNat_toNat h _

/-- Settles O4: five closed words, which the decoder evaluates. -/
theorem sampleBundlesDecode : Obligations.SampleBundlesDecode := by
  unfold Obligations.SampleBundlesDecode
  decide

end Sys2Proof
end

section
/-!
StickyShift (42_stickyshift.md) as a function of numbers. What makes the sticky bit sufficient: a
sticky quotient lies on the same side of every even number as the exact quotient, and no other
number does (R82).
-/

namespace Sys2Proof.Machine

/-- The one formula of R82: the quotient by `2^n`, or-ed with 1 when a set bit is dropped. -/
def stickyDiv (v n : Nat) : Nat := v / 2 ^ n ||| if v % 2 ^ n ≠ 0 then 1 else 0

theorem or_one_eq (q : Nat) : q ||| 1 = 2 * (q / 2) + 1 := by
  have high : (q ||| 1) / 2 = q / 2 := by rw [Nat.or_div_two]; simp
  have low : (q ||| 1) % 2 = 1 := Nat.or_mod_two_eq_one.mpr (.inr rfl)
  omega

theorem stickyDiv_of_dvd {v n : Nat} (h : 2 ^ n ∣ v) : stickyDiv v n = v / 2 ^ n := by
  rw [stickyDiv, if_neg (not_not.mpr (Nat.mod_eq_zero_of_dvd h)), Nat.or_zero]

theorem stickyDiv_of_not_dvd {v n : Nat} (h : ¬ 2 ^ n ∣ v) :
    stickyDiv v n = 2 * (v / 2 ^ n / 2) + 1 := by
  rw [stickyDiv, if_pos (mt Nat.dvd_of_mod_eq_zero h), or_one_eq]

@[simp] theorem stickyDiv_zero_right (v : Nat) : stickyDiv v 0 = v := by
  rw [stickyDiv_of_dvd (by simp), pow_zero, Nat.div_one]

@[simp] theorem stickyDiv_mul_pow_self (v n : Nat) : stickyDiv (v * 2 ^ n) n = v := by
  rw [stickyDiv_of_dvd (dvd_mul_left _ _), Nat.mul_div_cancel _ (by positivity)]

/-! ### Even thresholds -/

/-- Below an even number by the exact quotient is below it by the sticky one. -/
theorem stickyDiv_lt_iff {v n t : Nat} (even : 2 ∣ t) : stickyDiv v n < t ↔ v < t * 2 ^ n := by
  have exact : v / 2 ^ n < t ↔ v < t * 2 ^ n := Nat.div_lt_iff_lt_mul (by positivity)
  rw [← exact]
  by_cases h : 2 ^ n ∣ v
  · rw [stickyDiv_of_dvd h]
  · rw [stickyDiv_of_not_dvd h]
    omega

/-- Above an even number by the exact quotient is above it by the sticky one: a dropped bit lifts
the quotient off the threshold. -/
theorem lt_stickyDiv_iff {v n t : Nat} (even : 2 ∣ t) : t < stickyDiv v n ↔ t * 2 ^ n < v := by
  by_cases h : 2 ^ n ∣ v
  · obtain ⟨q, rfl⟩ := h
    rw [Nat.mul_comm (2 ^ n) q, stickyDiv_mul_pow_self, Nat.mul_lt_mul_right (by positivity)]
  · have exact : t ≤ v / 2 ^ n ↔ t * 2 ^ n ≤ v := Nat.le_div_iff_mul_le (by positivity)
    have off : t * 2 ^ n ≠ v := fun on => h (on ▸ dvd_mul_left _ _)
    rw [stickyDiv_of_not_dvd h, ← off.le_iff_lt, ← exact]
    omega

theorem le_stickyDiv_iff {v n t : Nat} (even : 2 ∣ t) : t ≤ stickyDiv v n ↔ t * 2 ^ n ≤ v := by
  rw [← not_lt, stickyDiv_lt_iff even, not_lt]

/-- A number is known by its side of every even number. -/
theorem eq_of_even_thresholds {x y : Nat} (above : ∀ t, 2 ∣ t → (t < x ↔ t < y))
    (below : ∀ t, 2 ∣ t → (x < t ↔ y < t)) : x = y := by
  rcases Nat.even_or_odd' x with ⟨k, rfl | rfl⟩
  · have := above (2 * k) (dvd_mul_right 2 k)
    have := below (2 * k) (dvd_mul_right 2 k)
    omega
  · have := above (2 * k) (dvd_mul_right 2 k)
    have := below (2 * (k + 1)) (dvd_mul_right 2 (k + 1))
    omega

/-- The sticky quotient is the one number on the exact quotient's side of every even number. -/
theorem eq_stickyDiv {x v n : Nat} (above : ∀ t, 2 ∣ t → (t < x ↔ t * 2 ^ n < v))
    (below : ∀ t, 2 ∣ t → (x < t ↔ v < t * 2 ^ n)) : x = stickyDiv v n :=
  eq_of_even_thresholds (fun t even => (above t even).trans (lt_stickyDiv_iff even).symm)
    (fun t even => (below t even).trans (stickyDiv_lt_iff even).symm)

theorem stickyDiv_stickyDiv (v m n : Nat) :
    stickyDiv (stickyDiv v m) n = stickyDiv v (m + n) := by
  have scale (t : Nat) : t * 2 ^ n * 2 ^ m = t * 2 ^ (m + n) := by rw [pow_add]; ring
  apply eq_stickyDiv
  · intro t even
    rw [lt_stickyDiv_iff even, lt_stickyDiv_iff (even.mul_right _), scale]
  · intro t even
    rw [stickyDiv_lt_iff even, stickyDiv_lt_iff (even.mul_right _), scale]

theorem stickyDiv_mul_pow_add (v n k : Nat) : stickyDiv (v * 2 ^ k) (k + n) = stickyDiv v n := by
  rw [← stickyDiv_stickyDiv, stickyDiv_mul_pow_self]

theorem stickyDiv_eq_zero_iff (v n : Nat) : stickyDiv v n = 0 ↔ v = 0 := by
  have := lt_stickyDiv_iff (v := v) (n := n) (dvd_zero 2)
  omega

theorem stickyDiv_le_self (v n : Nat) : stickyDiv v n ≤ v := by
  by_cases h : 2 ^ n ∣ v
  · rw [stickyDiv_of_dvd h]
    exact Nat.div_le_self v _
  · have hn : n ≠ 0 := by
      rintro rfl
      exact h (one_dvd v)
    have positive : v ≠ 0 := by
      rintro rfl
      exact h (dvd_zero _)
    have half : v / 2 ^ n ≤ v / 2 := Nat.div_le_div_left (Nat.le_self_pow hn 2) (by decide)
    rw [stickyDiv_of_not_dvd h]
    omega

/-! ### The block -/

/-- All three cases of R80 are the one formula. -/
theorem stickyShift_toNat {N : Nat} (v : BitVec N) (n : Nat) :
    (stickyShift v n).toNat = stickyDiv v.toNat n := by
  rcases Nat.eq_zero_or_pos n with rfl | positive
  · rw [stickyShift_amount_zero, stickyDiv_zero_right]
  rcases Nat.lt_or_ge n N with inside | outside
  · exact stickyShift_toNat_of_lt v positive.ne' inside
  · have small : v.toNat < 2 ^ n := v.isLt.trans_le (Nat.pow_le_pow_right (by decide) outside)
    rw [stickyShift_toNat_of_ge v positive.ne' outside, stickyDiv, Nat.div_eq_of_lt small,
      Nat.mod_eq_of_lt small, Nat.zero_or]

/-- Settles O18: the formula is the definition of `stickyDiv`. -/
theorem stickyShiftHasOneFormula : Obligations.StickyShiftHasOneFormula :=
  fun _ value amount => stickyShift_toNat value amount

/-- Settles O19: each clause is a law of `stickyDiv`. -/
theorem stickyShiftsCompose : Obligations.StickyShiftsCompose := by
  intro N value m n
  refine ⟨?compose, ?zero, ?bounded⟩
  case compose =>
    apply BitVec.eq_of_toNat_eq
    simp only [stickyShift_toNat, stickyDiv_stickyDiv]
  case zero =>
    simp only [← BitVec.toNat_inj, stickyShift_toNat, BitVec.toNat_ofNat, Nat.zero_mod,
      stickyDiv_eq_zero_iff]
  case bounded =>
    rw [stickyShift_toNat]
    exact stickyDiv_le_self _ _

end Sys2Proof.Machine
end

section
/-!
Renormalize (43_renormalize.md) by the highest set bit of its mantissa, over an accumulator of any
width from 62 bits up: the same normalized mantissa and exponent for each (R91, R93, R94).
-/

namespace Sys2Proof.Machine

/-! ### The leading-zero count (R91) -/

theorem toNat_ne_zero {w : Nat} {m : BitVec w} (h : m ≠ 0#w) : m.toNat ≠ 0 := by
  rwa [Ne, ← BitVec.toNat_inj, BitVec.toNat_ofNat, Nat.zero_mod] at h

theorem log2_toNat_lt {w : Nat} {m : BitVec w} (h : m ≠ 0#w) : m.toNat.log2 < w :=
  (Nat.log2_lt (toNat_ne_zero h)).mpr m.isLt

theorem clz_eq {w : Nat} (m : BitVec w) : clz m = w - 1 - m.toNat.log2 := rfl

/-- The shift that brings the highest set bit to a place is the distance to it. -/
theorem log2_add_of_mul_pow {v n t : Nat} (low : 2 ^ t ≤ v * 2 ^ n)
    (high : v * 2 ^ n < 2 ^ (t + 1)) : v.log2 + n = t := by
  have nonzero : v ≠ 0 := by
    rintro rfl
    simp at low
  have bottom : 2 ^ (v.log2 + n) ≤ v * 2 ^ n := by
    rw [pow_add]
    exact Nat.mul_le_mul_right _ (Nat.log2_self_le nonzero)
  have top : v * 2 ^ n < 2 ^ (v.log2 + n + 1) := by
    rw [Nat.add_right_comm, pow_add _ (v.log2 + 1)]
    exact Nat.mul_lt_mul_of_pos_right Nat.lt_log2_self (by positivity)
  have h1 : v.log2 + n < t + 1 := (Nat.pow_lt_pow_iff_right (by decide)).mp (bottom.trans_lt high)
  have h2 : t < v.log2 + n + 1 := (Nat.pow_lt_pow_iff_right (by decide)).mp (low.trans_lt top)
  omega

/-- The shift by the leading-zero count brings the highest set bit to the top. -/
theorem mul_pow_clz_bounds {w : Nat} {m : BitVec w} (h : m ≠ 0#w) :
    2 ^ (w - 1) ≤ m.toNat * 2 ^ clz m ∧ m.toNat * 2 ^ clz m < 2 ^ w := by
  have inside := log2_toNat_lt h
  have low : 2 ^ m.toNat.log2 * 2 ^ clz m = 2 ^ (w - 1) := by
    rw [← pow_add, clz_eq]
    congr 1
    omega
  have high : 2 ^ (m.toNat.log2 + 1) * 2 ^ clz m = 2 ^ w := by
    rw [← pow_add, clz_eq]
    congr 1
    omega
  rw [← low, ← high]
  exact ⟨Nat.mul_le_mul_right _ (Nat.log2_self_le (toNat_ne_zero h)),
    Nat.mul_lt_mul_of_pos_right Nat.lt_log2_self (by positivity)⟩

/-- Settles O20: the count is `61 - log2`, and `log2` is the highest set bit. -/
theorem clzIsTheDistanceOfTheHighestBit : Obligations.ClzIsTheDistanceOfTheHighestBit := by
  intro m nonzero
  have bounds := mul_pow_clz_bounds nonzero
  refine ⟨?_, rfl, Nat.testBit_log2 (toNat_ne_zero nonzero), ?above, bounds.1, bounds.2⟩
  · rw [clz_eq]
    omega
  case above =>
    intro j hj
    have : m.toNat < 2 ^ j :=
      Nat.lt_log2_self.trans_le (Nat.pow_le_pow_right (by decide) hj)
    exact Nat.testBit_lt_two_pow this

/-! ### The normalized mantissa (R93) -/

/-- A nonzero number brought to bit 30: shifted left below it, sticky-shifted right above it. -/
def normalizedMantissa (v : Nat) : Nat :=
  if v.log2 < 30 then v * 2 ^ (30 - v.log2) else stickyDiv v (v.log2 - 30)

theorem normalizedMantissa_bounds {v : Nat} (h : v ≠ 0) :
    2 ^ 30 ≤ normalizedMantissa v ∧ normalizedMantissa v < 2 ^ 31 := by
  have bottom := Nat.log2_self_le h
  have top : v < 2 ^ (v.log2 + 1) := Nat.lt_log2_self
  rw [normalizedMantissa]
  split
  case isTrue small =>
    have low : 2 ^ v.log2 * 2 ^ (30 - v.log2) = 2 ^ 30 := by
      rw [← pow_add, Nat.add_sub_cancel' small.le]
    have high : 2 ^ (v.log2 + 1) * 2 ^ (30 - v.log2) = 2 ^ 31 := by
      rw [← pow_add]
      congr 1
      omega
    rw [← low, ← high]
    exact ⟨Nat.mul_le_mul_right _ bottom, Nat.mul_lt_mul_of_pos_right top (by positivity)⟩
  case isFalse large =>
    have low : 2 ^ 30 * 2 ^ (v.log2 - 30) = 2 ^ v.log2 := by
      rw [← pow_add, Nat.add_sub_cancel' (not_lt.mp large)]
    have high : 2 ^ 31 * 2 ^ (v.log2 - 30) = 2 ^ (v.log2 + 1) := by
      rw [← pow_add]
      congr 1
      omega
    rw [le_stickyDiv_iff (by decide), stickyDiv_lt_iff (by decide), low, high]
    exact ⟨bottom, top⟩

/-- The top-aligned mantissa of any width is brought down to the same 31 bits. -/
theorem stickyDiv_topAligned {w v : Nat} (hw : 62 ≤ w) (hv : v.log2 < w) :
    stickyDiv (v * 2 ^ (w - 1 - v.log2)) (w - 31) = normalizedMantissa v := by
  rw [normalizedMantissa]
  split
  case isTrue small =>
    have split_shift : w - 1 - v.log2 = 30 - v.log2 + (w - 31) := by omega
    rw [split_shift, pow_add, ← mul_assoc, stickyDiv_mul_pow_self]
  case isFalse large =>
    have split_shift : w - 31 = w - 1 - v.log2 + (v.log2 - 30) := by omega
    rw [split_shift, stickyDiv_mul_pow_add]

/-! ### The block -/

/-- Renormalize of a nonzero mantissa, without the accumulator's width. -/
theorem renormalizeWide_eq {w : Nat} (hw : 62 ≤ w) {m : BitVec w} (h : m ≠ 0#w) (sign : Bool)
    (e : Int) :
    renormalizeWide sign e m =
      ⟨sign, e + m.toNat.log2 - 60, BitVec.ofNat 31 (normalizedMantissa m.toNat)⟩ := by
  have inside := log2_toNat_lt h
  have aligned : (m <<< clz m).toNat = m.toNat * 2 ^ (w - 1 - m.toNat.log2) := by
    rw [BitVec.toNat_shiftLeft, Nat.shiftLeft_eq, Nat.mod_eq_of_lt (mul_pow_clz_bounds h).2, clz_eq]
  have exponent : e - (clz m : Int) + Config.normCorrection w = e + m.toNat.log2 - 60 := by
    simp only [clz_eq, Config.normCorrection]
    omega
  have mantissa : (stickyShift (m <<< clz m) (Config.normShift w)).setWidth 31 =
      BitVec.ofNat 31 (normalizedMantissa m.toNat) := by
    rw [← BitVec.ofNat_toNat, stickyShift_toNat, aligned, ← stickyDiv_topAligned hw inside]
    rfl
  rw [renormalizeWide, if_neg h, exponent, mantissa]

theorem renormalize_eq {m : Acc} (h : m ≠ 0#62) (sign : Bool) (e : Int) :
    renormalize sign e m =
      ⟨sign, e + m.toNat.log2 - 60, BitVec.ofNat 31 (normalizedMantissa m.toNat)⟩ :=
  renormalizeWide_eq le_rfl h sign e

theorem renormalize_mantissa_toNat {m : Acc} (h : m ≠ 0#62) (sign : Bool) (e : Int) :
    (renormalize sign e m).mantissa.toNat = normalizedMantissa m.toNat := by
  rw [renormalize_eq h, BitVec.toNat_ofNat,
    Nat.mod_eq_of_lt (normalizedMantissa_bounds (toNat_ne_zero h)).2]

/-- Settles O22: `h` is the `log2` of `renormalize_eq`. -/
theorem renormalizeNetEffect : Obligations.RenormalizeNetEffect := by
  intro sign exponent m h low high u
  have nonzero : m ≠ 0#62 := by
    rintro rfl
    simp at low
  obtain rfl : m.toNat.log2 = h :=
    (Nat.log2_eq_iff (toNat_ne_zero nonzero)).mpr ⟨low, high⟩
  have mantissa : u.mantissa.toNat = normalizedMantissa m.toNat :=
    renormalize_mantissa_toNat nonzero sign exponent
  refine ⟨?sign, ?exponent, ?right, ?left, ?normal⟩
  case sign => exact congrArg UnpackedFloat.sign (renormalize_eq nonzero sign exponent)
  case exponent => exact congrArg UnpackedFloat.exponent (renormalize_eq nonzero sign exponent)
  case right =>
    intro large
    rw [mantissa, normalizedMantissa, if_neg (not_lt.mpr large), stickyShift_toNat]
  case left =>
    intro small
    rw [mantissa, normalizedMantissa, if_pos small]
  case normal =>
    rw [mantissa]
    exact (normalizedMantissa_bounds (toNat_ne_zero nonzero)).1

/-- Settles O23: widening keeps the mantissa's number, on which alone the result depends. -/
theorem renormalizeDoesNotDependOnTheWidth : Obligations.RenormalizeDoesNotDependOnTheWidth := by
  intro w sign exponent m hw
  have number : (m.setWidth w).toNat = m.toNat := BitVec.toNat_setWidth_of_le hw
  by_cases zero : m = 0#62
  · subst zero
    simp [renormalizeWide]
  · have nonzero : m.setWidth w ≠ 0#w := by
      intro wide
      rw [wide] at number
      exact toNat_ne_zero zero (by simpa using number.symm)
    rw [renormalizeWide_eq hw nonzero, renormalize_eq zero, number]

/-! ### The operation -/

/-- The port agrees with the exponent wherever it fits (R52, R92). -/
theorem renormExponentBits_toInt {sign : Bool} {e : Int} {m : Acc}
    (h : exponentFitsPort (renormalize sign e m).exponent) :
    exponentOfPort (renormExponentBits sign e m) = (renormalize sign e m).exponent := by
  rw [renormExponentBits_of_fits h, exponentOfPort_portOfExponent h]

/-- Settles O21: a shift that fits the clause is the leading-zero count. -/
theorem renormalizeNormalizesItsOperand : Obligations.RenormalizeNormalizesItsOperand := by
  intro sign exponent m s
  refine ⟨renormalize sign exponent m, renormExponentBits sign exponent m,
    exec_renormalize sign exponent m s, ?zero, ?nonzero,
    fun low high => renormExponentBits_toInt ⟨low, high⟩⟩
  case zero =>
    intro zero
    obtain rfl : m = 0#62 := BitVec.eq_of_toNat_eq zero
    exact renormalize_zero sign exponent
  case nonzero =>
    intro n low high
    have nonzero : m ≠ 0#62 := by
      rintro rfl
      simp at low
    have shift : m.toNat.log2 + n = 61 := log2_add_of_mul_pow low high
    have aligned : stickyDiv (m.toNat * 2 ^ n) 31 = normalizedMantissa m.toNat := by
      rw [← stickyDiv_topAligned le_rfl (log2_toNat_lt nonzero)]
      congr 3
      omega
    refine ⟨?sign, ?exponent, ?mantissa⟩
    case sign => rw [renormalize_eq nonzero]
    case exponent =>
      rw [renormalize_eq nonzero]
      show exponent + (m.toNat.log2 : Int) - 60 = exponent - n + 1
      omega
    case mantissa =>
      rw [renormalize_mantissa_toNat nonzero, ← aligned]
      rfl

end Sys2Proof.Machine
end

section
/-!
SplitFloat and RoundAndPack as a pair (41_splitfloat.md, 44_roundandpack.md): the shape of an
unpacked operand (R72), the rounding carry (R103), and packing as the inverse of unpacking up to
flush-to-zero.
-/

namespace Sys2Proof.Machine

/-! ### The shape of an unpacked operand (R72) -/

theorem splitFloat_mantissa_eq_zero {x : Word} :
    (splitFloat x).mantissa = 0#31 ↔ exponentField x = 0#8 := by
  rw [← splitFloat_mantissa_eq_zero_iff, ← BitVec.toNat_inj]
  rfl

theorem splitFloat_exponent_eq_iff (x : Word) :
    (splitFloat x).exponent = -127 ↔ exponentField x = 0#8 := by
  rw [splitFloat_exponent, ← BitVec.toNat_inj, BitVec.toNat_ofNat]
  omega

theorem splitFloat_mantissa_toNat_of_nonzero {x : Word} (h : exponentField x ≠ 0#8) :
    (splitFloat x).mantissa.toNat = (2 ^ 23 + (fractionField x).toNat) * 2 ^ 7 := by
  rw [splitFloat_of_nonzero h, mantissaOfFraction_toNat]

/-- The largest mantissa has a fraction of 23 ones. -/
theorem splitFloat_mantissa_le (x : Word) : (splitFloat x).mantissa.toNat ≤ 0x7FFFFF80 := by
  rw [splitFloat_mantissa_toNat]
  split <;> omega

theorem splitFloat_mantissa_mod (x : Word) : (splitFloat x).mantissa.toNat % 128 = 0 :=
  Nat.mod_eq_zero_of_dvd (dvd_splitFloat_mantissa x)

/-- Settles O15: exponent and mantissa both tell the zero class, outside of which the implicit one
is bit 30. -/
theorem splitFloatOutputIsNormalized : Obligations.SplitFloatOutputIsNormalized := by
  intro x u
  obtain ⟨low, high⟩ := splitFloat_exponent_range x
  refine ⟨high, low, (splitFloat_exponent_eq_iff x).trans splitFloat_mantissa_eq_zero.symm,
    ?shape, splitFloat_mantissa_mod x⟩
  case shape =>
    by_cases h : exponentField x = 0#8
    · exact .inl (splitFloat_mantissa_of_zeroClass h)
    · exact .inr ⟨le_splitFloat_mantissa_of_nonzero h, splitFloat_mantissa_le x⟩

/-! ### The rounding carry (R103) -/

theorem roundedOnce_eq_top_iff (m : Mantissa) : roundedOnce m = 2 ^ 24 ↔ 0x7FFFFFC0 ≤ m.toNat := by
  have hm : m.toNat < 2 ^ 31 := m.isLt
  rw [roundedOnce_eq]
  split <;> omega

/-- Settles O26: the carry is the comparison of `roundingCarry_roundedOnce`. -/
theorem roundingCarryOnlyFromAllOnes : Obligations.RoundingCarryOnlyFromAllOnes := by
  intro m
  rw [roundingCarry_roundedOnce, decide_eq_true_iff]
  refine ⟨roundedOnce_eq_top_iff m, roundedOnce_le m, fun top => ⟨top, ?_⟩⟩
  rw [roundedMantissa_eq, top]
  rfl

/-! ### Packing an unpacked word (R72) -/

/-- A mantissa whose dropped bits are clear is kept as it is. -/
theorem roundedOnce_of_mod_eq_zero {m : Mantissa} (h : m.toNat % 128 = 0) :
    roundedOnce m = m.toNat / 2 ^ 7 := by
  rw [roundedOnce_eq, if_neg (by omega)]

/-- Without a carry the exponent and the rounded value go to the range check unchanged. -/
theorem roundAndPack_of_no_carry {m : Mantissa} (h : roundedOnce m ≠ 2 ^ 24) (sign : Bool)
    (e : Int) : roundAndPack sign e m = packInRange sign e (roundedOnce m) := by
  rw [roundAndPack, workingExponent_eq, roundedMantissa_eq, decide_eq_false h]
  rfl

/-- A zero mantissa under the exponent of a zero packs to the zero of its sign. -/
theorem roundAndPack_zero (sign : Bool) : roundAndPack sign (-127) 0#31 = signedZero sign := by
  cases sign <;> decide

/-- What an unpacked operand packs to. -/
theorem roundAndPack_splitFloat (x : Word) :
    roundAndPack (splitFloat x).sign (splitFloat x).exponent (splitFloat x).mantissa =
      flushToZero x := by
  by_cases h : exponentField x = 0#8
  · rw [splitFloat_of_zeroClass h, flushToZero_of_zeroClass h, roundAndPack_zero]
  · have kept : roundedOnce (splitFloat x).mantissa = 2 ^ 23 + (fractionField x).toNat := by
      rw [roundedOnce_of_mod_eq_zero (splitFloat_mantissa_mod x),
        splitFloat_mantissa_toNat_of_nonzero h, Nat.mul_div_cancel _ (by decide)]
    have fraction_lt : (fractionField x).toNat < 2 ^ 23 := (fractionField x).isLt
    have field_lt : (exponentField x).toNat < 2 ^ 8 := (exponentField x).isLt
    have field : BitVec.ofNat 8 ((splitFloat x).exponent + 127).toNat = exponentField x := by
      rw [splitFloat_exponent, Int.sub_add_cancel, Int.toNat_natCast, BitVec.ofNat_toNat,
        BitVec.setWidth_eq]
    have fraction : BitVec.ofNat 23 (2 ^ 23 + (fractionField x).toNat) = fractionField x := by
      apply BitVec.eq_of_toNat_eq
      rw [BitVec.toNat_ofNat, Nat.add_mod_left, Nat.mod_eq_of_lt fraction_lt]
    obtain ⟨low, high⟩ := splitFloat_exponent_range x
    rw [roundAndPack_of_no_carry (by omega), kept, packInRange_of_range (by omega) (by omega),
      field, fraction, splitFloat_sign, packFields_of_fields, flushToZero_of_nonzero h]

/-- Settles O16: the right side is the flushed form of the word. -/
theorem roundAndPackUndoesSplitFloat : Obligations.RoundAndPackUndoesSplitFloat :=
  roundAndPack_splitFloat

end Sys2Proof.Machine
end

section
/-!
Steps and runs (10_state.md, 70_reset_and_hazards.md): what each kind of step answers, the invariant
`Consistent`, schedules that never stop, latency, feedback, and independence of the history.
-/

namespace Sys2Proof.Machine

/-! ### What each event answers -/

theorem runEvent_present {bytes : List Byte} {i : Instr} (h : decode bytes = .ok i) (s : State) :
    runEvent (.present bytes) s = exec i s := by
  simp only [runEvent, runBundle, h]

theorem runEvent_present_of_error {bytes : List Byte} {reason : DecodeError}
    (h : decode bytes = .error reason) (s : State) :
    runEvent (.present bytes) s = .refused (.notABundle reason) := by
  simp only [runEvent, runBundle, h]

theorem runEvent_present_fma (a b c : Word) (s : State) :
    runEvent (.present (encode (.fma a b c))) s = .next (s.clockEdge a b c (fma a b c)) := by
  rw [runEvent_present (decodeOfEncodeIsTheOperation (.fma a b c) rfl), exec_fma]

theorem runEvent_reset (s : State) : runEvent .reset s = .next s.resetRegister := rfl

theorem step_of_empty_eq {s : State} (h : s.schedule = []) :
    step s = .next (s.clockEdge s.a s.b s.c (fma s.a s.b s.c)) := by
  rw [step_of_empty h, runHeld, exec_fma]

/-- Settles O5: what `decode` reads is well-formed, and the event runs its meaning. -/
theorem stepRunsThePresentedOperation : Obligations.StepRunsThePresentedOperation := by
  intro s bytes rest i scheduled decoded
  exact ⟨(encodeOfDecodeIsTheBundle bytes i decoded).1,
    by rw [step_of_event scheduled, runEvent_present decoded]⟩

theorem decode_of_decodeTableWord {nbits w : Nat} {i : Instr}
    (h : decodeTableWord nbits w = some i) :
    decode (bytesOfBundle (bytesForBits nbits) w) = .ok i := by
  unfold decodeTableWord at h
  split at h
  · next decoded => rw [decoded, Option.some.inj h]
  · cases h

/-- Settles O6: the placed bundle is the next event, and taking it off gives the state back. -/
theorem placedWordRunsNext : Obligations.PlacedWordRunsNext := by
  intro s nbits w i decoded
  rw [State.withFetchWord, step_of_event (State.presentNext_schedule s _),
    runEvent_present (decode_of_decodeTableWord decoded)]
  rfl

/-- Settles O7: an edge with the held inputs leaves them as they are. -/
theorem heldInputsAreEvaluatedAgain : Obligations.HeldInputsAreEvaluatedAgain := by
  intro s nothing
  rw [step_of_empty_eq nothing]
  rfl

/-- Settles O8: `readSource` samples the register's word, whether or not an edge has loaded it. -/
theorem wiredPortsSampleTheRegister : Obligations.WiredPortsSampleTheRegister := by
  intro s a b c rest scheduled sampled
  have samples (p : PortSource) : readSource { s with schedule := rest } p = sampled p := by
    cases p with
    | word w => rfl
    | result flip => rfl
  rw [step_of_event scheduled, runEvent_wire, samples a, samples b, samples c]
  rfl

theorem readOutputPort_of_loaded {s : State} (h : s.loaded = true) :
    readOutputPort s = some s.result := by
  rw [readOutputPort_eq, if_pos h]

theorem readOutputPort_of_not_loaded {s : State} (h : s.loaded = false) :
    readOutputPort s = none := by
  rw [readOutputPort_eq, h]
  rfl

/-- Settles O10: `resetRegister` writes the register and `loaded` alone. -/
theorem resetEventClearsOnlyTheRegister : Obligations.ResetEventClearsOnlyTheRegister := by
  intro s rest scheduled
  exact ⟨_, by rw [step_of_event scheduled, runEvent_reset], rfl, readOutputPort_of_not_loaded rfl⟩

/-- Settles O11: the presented edge loads the register of the reset state as of any other. -/
theorem resetStateIsReadyAndHasNoValue : Obligations.ResetStateIsReadyAndHasNoValue := by
  refine ⟨readOutputPort_of_not_loaded rfl, fun a b c => ?_⟩
  refine ⟨_, ?_, readOutputPort_of_loaded (State.clockEdge_loaded State.reset a b c (fma a b c))⟩
  rw [step_of_event (State.presentNext_schedule State.reset _), runEvent_present_fma]
  rfl

theorem decode_of_other_length {bytes : List Byte} (h : ¬ bytes.length ∈ [4, 6, 9, 10, 12]) :
    decode bytes = .error (.noFormatOfLength bytes.length) := by
  simp only [List.mem_cons, List.not_mem_nil, or_false, not_or] at h
  obtain ⟨h4, h6, h9, h10, h12⟩ := h
  unfold decode
  split
  · next length => exact absurd length h4
  · next length => exact absurd length h6
  · next length => exact absurd length h9
  · next length => exact absurd length h10
  · next length => exact absurd length h12
  · rfl

theorem decode_of_padding_UF {bytes : List Byte} (h : bytes.length = 6)
    (padding : 2 ^ 42 ≤ bundleOfBytes bytes) : decode bytes = .error (.paddingSet "UF") := by
  simp only [decode, h, if_neg (not_lt.mpr padding)]

theorem decode_of_padding_WA {bytes : List Byte} (h : bytes.length = 10)
    (padding : 2 ^ 73 ≤ bundleOfBytes bytes) : decode bytes = .error (.paddingSet "WA") := by
  simp only [decode, h, if_neg (not_lt.mpr padding)]

/-- Settles O12: each clause is a refusal of `decode`, which the event passes on. -/
theorem otherBytesAreRefused : Obligations.OtherBytesAreRefused := by
  intro s bytes rest scheduled
  rw [step_of_event scheduled]
  exact ⟨fun other => runEvent_present_of_error (decode_of_other_length other) _,
    fun length padding => runEvent_present_of_error (decode_of_padding_UF length padding) _,
    fun length padding => runEvent_present_of_error (decode_of_padding_WA length padding) _⟩

/-! ### What an operation leaves unchanged -/

/-- No operation touches the schedule. -/
theorem exec_schedule {i : Instr} {s t : State} (h : exec i s = .next t) :
    t.schedule = s.schedule := by
  rcases exec_cases h with ⟨x, -, rfl⟩ | ⟨n, v, -, rfl⟩ | ⟨g, e, m, -, rfl⟩ | ⟨g, e, m, -, rfl⟩ |
    ⟨a, b, c, -, rfl⟩ <;> rfl

/-- Settles O47: the four stand-alone operations each drive their own output. -/
theorem standAloneBlocksLeaveTheDatapath : Obligations.StandAloneBlocksLeaveTheDatapath := by
  intro i s t standAlone h
  rcases exec_cases h with ⟨x, -, rfl⟩ | ⟨n, v, -, rfl⟩ | ⟨g, e, m, -, rfl⟩ | ⟨g, e, m, -, rfl⟩ |
    ⟨a, b, c, isFma, -⟩
  case inr.inr.inr.inr => exact absurd isFma (standAlone a b c)
  all_goals exact ⟨rfl, rfl, rfl, rfl, rfl, rfl⟩

/-- A step takes one event off the schedule, if there is one. -/
theorem step_schedule {s t : State} (h : step s = .next t) : t.schedule = s.schedule.tail := by
  rcases step_cases h with ⟨nothing, rfl⟩ | ⟨e, rest, scheduled, ran⟩
  · simp [nothing]
  · rw [scheduled, List.tail_cons]
    rcases runEvent_cases ran with ⟨bytes, i, -, -, executed⟩ | ⟨a, b, c, -, executed⟩ | ⟨-, rfl⟩
    · exact exec_schedule executed
    · exact exec_schedule executed
    · rfl

/-! ### The invariant -/

theorem isUnpackedNormal_canonicalZero : isUnpackedNormal canonicalZero := .inl ⟨rfl, rfl⟩

theorem isUnpackedNormal_of_le {u : UnpackedFloat} (h : 2 ^ 30 ≤ u.mantissa.toNat) :
    isUnpackedNormal u := by
  have hm : u.mantissa.toNat < 2 ^ 31 := u.mantissa.isLt
  have top : u.mantissa.toNat / 2 ^ 30 % 2 = 1 := by omega
  refine .inr ?_
  rw [BitVec.getLsbD, Nat.testBit_eq_decide_div_mod_eq, decide_eq_true top]

theorem splitFloat_isUnpackedNormal (x : Word) : isUnpackedNormal (splitFloat x) := by
  by_cases h : exponentField x = 0#8
  · exact .inl ⟨splitFloat_mantissa_of_zeroClass h, (splitFloat_exponent_eq_iff x).mpr h⟩
  · exact isUnpackedNormal_of_le (le_splitFloat_mantissa_of_nonzero h)

theorem le_renormalize_mantissa {m : Acc} (h : m ≠ 0#62) (sign : Bool) (e : Int) :
    2 ^ 30 ≤ (renormalize sign e m).mantissa.toNat := by
  rw [renormalize_mantissa_toNat h]
  exact (normalizedMantissa_bounds (toNat_ne_zero h)).1

theorem renormalize_isUnpackedNormal (sign : Bool) (e : Int) (m : Acc) :
    isUnpackedNormal (renormalize sign e m) := by
  by_cases h : m = 0#62
  · rw [h, renormalize_zero]
    exact isUnpackedNormal_canonicalZero
  · exact isUnpackedNormal_of_le (le_renormalize_mantissa h sign e)

/-- Only a zero renormalizes to a zero, which is the canonical one. -/
theorem renormalize_eq_canonicalZero {sign : Bool} {e : Int} {m : Acc}
    (h : (renormalize sign e m).mantissa = 0#31) : renormalize sign e m = canonicalZero := by
  by_cases zero : m = 0#62
  · rw [zero, renormalize_zero]
  · have := le_renormalize_mantissa zero sign e
    simp [h] at this

/-- Settles O42: the reset state's outputs are canonical zeros and nothing is loaded. -/
theorem resetIsConsistent : Obligations.ResetIsConsistent where
  registerHoldsLastResult := fun loaded => absurd loaded Bool.false_ne_true
  unpackerNormal := isUnpackedNormal_canonicalZero
  unpackerLowBits := rfl
  unpackerExponent := ⟨by decide, by decide⟩
  renormNormal := isUnpackedNormal_canonicalZero
  renormZeroCanonical := fun _ => rfl
  renormPort := exponentOfPort_portOfExponent

/-- The invariant does not speak of the schedule. -/
theorem Consistent.withSchedule {s : State} (h : Consistent s) (rest : List HostEvent) :
    Consistent { s with schedule := rest } :=
  ⟨h.registerHoldsLastResult, h.unpackerNormal, h.unpackerLowBits, h.unpackerExponent,
    h.renormNormal, h.renormZeroCanonical, h.renormPort⟩

theorem Consistent.clockEdge {s : State} (h : Consistent s) (a b c : Word) :
    Consistent (s.clockEdge a b c (fma a b c)) :=
  { h with registerHoldsLastResult := fun _ => rfl }

theorem Consistent.resetRegister {s : State} (h : Consistent s) : Consistent s.resetRegister :=
  { h with registerHoldsLastResult := fun loaded => absurd loaded Bool.false_ne_true }

theorem Consistent.driveUnpacker {s : State} (h : Consistent s) (x : Word) :
    Consistent (s.driveUnpacker (splitFloat x)) :=
  { h with
    unpackerNormal := splitFloat_isUnpackedNormal x
    unpackerLowBits := splitFloat_mantissa_mod x
    unpackerExponent := splitFloat_exponent_range x }

theorem Consistent.driveShifter {s : State} (h : Consistent s) (v : Acc) :
    Consistent (s.driveShifter v) := { h with }

theorem Consistent.drivePacker {s : State} (h : Consistent s) (w : Word) :
    Consistent (s.drivePacker w) := { h with }

theorem Consistent.driveRenormalizer {s : State} (h : Consistent s) (sign : Bool) (e : Int)
    (m : Acc) :
    Consistent (s.driveRenormalizer (renormalize sign e m) (renormExponentBits sign e m)) :=
  { h with
    renormNormal := renormalize_isUnpackedNormal sign e m
    renormZeroCanonical := renormalize_eq_canonicalZero
    renormPort := renormExponentBits_toInt }

theorem exec_keeps_consistent {i : Instr} {s t : State} (h : Consistent s)
    (executed : exec i s = .next t) : Consistent t := by
  rcases exec_cases executed with ⟨x, -, rfl⟩ | ⟨n, v, -, rfl⟩ | ⟨g, e, m, -, rfl⟩ |
    ⟨g, e, m, -, rfl⟩ | ⟨a, b, c, -, rfl⟩
  · exact h.driveUnpacker x
  · exact h.driveShifter _
  · exact h.driveRenormalizer g e m
  · exact h.drivePacker _
  · exact h.clockEdge a b c

/-- Settles O43: an edge, an operation and a reset each keep the invariant, and nothing else is a
step. -/
theorem stepKeepsConsistency : Obligations.StepKeepsConsistency := by
  intro s t consistent stepped
  rcases step_cases stepped with ⟨-, rfl⟩ | ⟨e, rest, -, ran⟩
  · exact consistent.clockEdge s.a s.b s.c
  · have taken := consistent.withSchedule rest
    rcases runEvent_cases ran with ⟨bytes, i, -, -, executed⟩ | ⟨a, b, c, -, executed⟩ | ⟨-, rfl⟩
    · exact exec_keeps_consistent taken executed
    · exact exec_keeps_consistent taken executed
    · exact taken.resetRegister

/-! ### Schedules that never stop -/

/-- Whether an event answers a next state is seen on the event alone. -/
theorem runEvent_next_iff (e : HostEvent) (s : State) :
    (∃ t, runEvent e s = .next t) ↔ eventRuns e = true := by
  cases e with
  | present bytes =>
    cases decoded : decode bytes with
    | ok i =>
      simp only [runEvent_present decoded, eventRuns, decoded, iff_true]
      exact noOperationStops i s
    | error reason => simp [runEvent_present_of_error decoded, eventRuns, decoded]
  | wire a b c => exact iff_of_true ⟨_, runEvent_wire a b c s⟩ rfl
  | reset => exact iff_of_true ⟨_, runEvent_reset s⟩ rfl

theorem step_of_runsSafely {s : State} (safe : runsSafely s = true) :
    ∃ t, step s = .next t ∧ runsSafely t = true := by
  have steps : ∃ t, step s = .next t := by
    cases scheduled : s.schedule with
    | nil => exact ⟨_, step_of_empty_eq scheduled⟩
    | cons e rest =>
      rw [step_of_event scheduled, runEvent_next_iff]
      exact List.all_eq_true.mp safe e (by simp [scheduled])
  obtain ⟨t, stepped⟩ := steps
  refine ⟨t, stepped, List.all_eq_true.mpr fun e member => ?_⟩
  rw [step_schedule stepped] at member
  exact List.all_eq_true.mp safe e (List.mem_of_mem_tail member)

/-- A run of one step and more takes that step. -/
theorem step_of_run_succ {k : Nat} {s t : State}
    (h : Host.Core.run Sys2Proof.core (k + 1) s = .next t) :
    ∃ u, step s = .next u ∧ Host.Core.run Sys2Proof.core k u = .next t := by
  cases stepped : step s with
  | next u => exact ⟨u, rfl, by rw [← run_succ_of_next stepped, h]⟩
  | fault r => simp [Host.Core.run, Sys2Proof.core, stepped] at h
  | refused r => simp [Host.Core.run, Sys2Proof.core, stepped] at h

theorem run_of_runsSafely {s : State} (safe : runsSafely s = true) (k : Nat) :
    ∃ t : State, Host.Core.run Sys2Proof.core k s = .next t := by
  induction k generalizing s with
  | zero => exact ⟨s, run_zero s⟩
  | succ k ih =>
    obtain ⟨u, stepped, safe'⟩ := step_of_runsSafely safe
    rw [run_succ_of_next stepped]
    exact ih safe'

/-- A machine that never stops reaches each scheduled event, and the event runs. -/
theorem eventsRun_of_run {events : List HostEvent} {s : State} (scheduled : s.schedule = events)
    (runs : ∀ k : Nat, ∃ t : State, Host.Core.run Sys2Proof.core k s = .next t) :
    events.all eventRuns = true := by
  induction events generalizing s with
  | nil => rfl
  | cons e rest ih =>
    obtain ⟨_, ran⟩ := runs 1
    obtain ⟨u, stepped, -⟩ := step_of_run_succ ran
    have onward : ∀ k : Nat, ∃ t : State, Host.Core.run Sys2Proof.core k u = .next t :=
      fun k => run_succ_of_next stepped k ▸ runs (k + 1)
    have left : u.schedule = rest := by rw [step_schedule stepped, scheduled, List.tail_cons]
    rw [step_of_event scheduled] at stepped
    rw [List.all_cons, (runEvent_next_iff e _).mp ⟨u, stepped⟩, ih left onward, Bool.and_self]

/-- Settles O44: a safe state steps to a safe state, and a state that steps for ever has run every
event of its schedule. -/
theorem runsForeverExactlyWhenScheduleIsSafe :
    Obligations.RunsForeverExactlyWhenScheduleIsSafe :=
  fun _ => ⟨run_of_runsSafely, eventsRun_of_run rfl⟩

/-! ### Latency and feedback -/

theorem step_of_present_fma {s : State} {a b c : Word} {rest : List HostEvent}
    (h : s.schedule = .present (encode (.fma a b c)) :: rest) :
    step s = .next ({ s with schedule := rest }.clockEdge a b c (fma a b c)) := by
  rw [step_of_event h, runEvent_present_fma]

/-- Settles O45: each presented triple is one edge, which overwrites what the edge before wrote. -/
theorem latencyIsOneEdge : Obligations.LatencyIsOneEdge := by
  intro earlier a b c rest
  induction earlier with
  | nil =>
    intro s scheduled
    exact ⟨_, run_succ_of_next (step_of_present_fma scheduled) 0, rfl, readOutputPort_of_loaded rfl⟩
  | cons o earlier ih =>
    intro s scheduled
    obtain ⟨t, ran, shape, read⟩ :=
      ih ({ s with schedule := _ }.clockEdge o.1 o.2.1 o.2.2 (fma o.1 o.2.1 o.2.2)) rfl
    exact ⟨t, (run_succ_of_next (step_of_present_fma scheduled) _).trans ran, shape, read⟩

/-- An edge with `c` wired to `result` adds the product of the driven factors to the register. -/
theorem step_of_accumulate {s : State} {x y : Word} {rest : List HostEvent}
    (h : s.schedule = .wire (.word x) (.word y) (.result 0) :: rest) :
    step s = .next ({ s with schedule := rest }.clockEdge x y s.result (fma x y s.result)) := by
  rw [step_of_event h, runEvent_wire]
  have plain : s.result ^^^ (0 : Word) = s.result := BitVec.xor_zero
  simp only [readSource_word, readSource_result, plain]

/-- A chain of accumulating edges; the register is loaded after it if it was before or if there is
an edge at all. -/
theorem run_accumulate (factors : List (Word × Word)) {rest : List HostEvent} {s : State}
    (scheduled : s.schedule =
      factors.map (fun f => HostEvent.wire (.word f.1) (.word f.2) (.result 0)) ++ rest) :
    ∃ t : State, Host.Core.run Sys2Proof.core factors.length s = .next t ∧
      t.result = factors.foldl (fun acc f => fma f.1 f.2 acc) s.result ∧
      t.schedule = rest ∧ (s.loaded = true ∨ factors ≠ [] → t.loaded = true) := by
  induction factors generalizing s with
  | nil => exact ⟨s, run_zero s, rfl, scheduled, fun h => h.resolve_right (not_not.mpr rfl)⟩
  | cons f factors ih =>
    obtain ⟨t, ran, result, left, loaded⟩ :=
      ih (s := { s with schedule := _ }.clockEdge f.1 f.2 s.result (fma f.1 f.2 s.result)) rfl
    exact ⟨t, (run_succ_of_next (step_of_accumulate scheduled) _).trans ran, result, left,
      fun _ => loaded (.inl rfl)⟩

/-- Settles O9: the chain leaves the register loaded, so a consumer reads its word. -/
theorem feedbackAccumulatesOnePerEdge : Obligations.FeedbackAccumulatesOnePerEdge := by
  intro factors rest s scheduled
  obtain ⟨t, ran, result, left, loaded⟩ := run_accumulate factors scheduled
  exact ⟨t, ran, result, left, fun h => readOutputPort_of_loaded (loaded (.inr h))⟩

/-! ### Independence of the history -/

/-- Two states that the host treats alike, with nothing wired back; the words in their registers may
differ. -/
structure Twins (s t : State) : Prop where
  inputs : SameInputs s t
  loaded : s.loaded = t.loaded
  driven : ∀ a b c, HostEvent.wire a b c ∈ s.schedule →
    a.isWord = true ∧ b.isWord = true ∧ c.isWord = true

/-- The register and whether it is loaded are what they were. -/
def RegisterKept (s s' : State) : Prop := s'.result = s.result ∧ s'.loaded = s.loaded

/-- A consumer reads the same in both states, or neither register has been touched since `s` and
`t`. -/
def SameReadOrKept (s t s' t' : State) : Prop :=
  readOutputPort s' = readOutputPort t' ∨ RegisterKept s s' ∧ RegisterKept t t'

theorem readOutputPort_of_kept {s s' : State} (h : RegisterKept s s') :
    readOutputPort s' = readOutputPort s := by
  rw [readOutputPort_eq, readOutputPort_eq, h.1, h.2]

theorem SameReadOrKept.read {s t s' t' : State} (h : SameReadOrKept s t s' t')
    (before : readOutputPort s = readOutputPort t) : readOutputPort s' = readOutputPort t' := by
  rcases h with same | ⟨keptS, keptT⟩
  · exact same
  · rw [readOutputPort_of_kept keptS, readOutputPort_of_kept keptT, before]

theorem SameReadOrKept.trans {s t s' t' s'' t'' : State} (h : SameReadOrKept s t s' t')
    (h' : SameReadOrKept s' t' s'' t'') : SameReadOrKept s t s'' t'' := by
  rcases h with same | ⟨keptS, keptT⟩
  · exact .inl (h'.read same)
  rcases h' with same | ⟨keptS', keptT'⟩
  · exact .inl same
  · exact .inr ⟨⟨keptS'.1.trans keptS.1, keptS'.2.trans keptS.2⟩,
      ⟨keptT'.1.trans keptT.1, keptT'.2.trans keptT.2⟩⟩

/-- An edge with the same three words on the ports of both. -/
theorem Twins.clockEdge {s t : State} (h : Twins s t) (a b c r : Word) :
    Twins (s.clockEdge a b c r) (t.clockEdge a b c r) ∧
      readOutputPort (s.clockEdge a b c r) = readOutputPort (t.clockEdge a b c r) :=
  ⟨⟨⟨h.inputs.schedule, rfl, rfl, rfl⟩, rfl, h.driven⟩, rfl⟩

theorem Twins.tail {s t : State} (h : Twins s t) {e : HostEvent} {rest : List HostEvent}
    (scheduled : s.schedule = e :: rest) :
    Twins { s with schedule := rest } { t with schedule := rest } :=
  ⟨⟨rfl, h.inputs.a, h.inputs.b, h.inputs.c⟩, h.loaded,
    fun a b c member => h.driven a b c (scheduled ▸ List.mem_cons_of_mem e member)⟩

theorem Twins.resetRegister {s t : State} (h : Twins s t) :
    Twins s.resetRegister t.resetRegister :=
  ⟨⟨h.inputs.schedule, h.inputs.a, h.inputs.b, h.inputs.c⟩, rfl, h.driven⟩

/-- The same operation on twins: an edge loads both registers with the same word, and the other
operations touch neither. -/
theorem exec_twins {i : Instr} {s t s' t' : State} (h : Twins s t) (hs : exec i s = .next s')
    (ht : exec i t = .next t') : Twins s' t' ∧ SameReadOrKept s t s' t' := by
  cases i with
  | fma x y z =>
    cases hs
    cases ht
    obtain ⟨twins, same⟩ := h.clockEdge x y z (fma x y z)
    exact ⟨twins, .inl same⟩
  | splitFloat | stickyShift | renormalize | roundAndPack =>
    cases hs
    cases ht
    exact ⟨⟨⟨h.inputs.schedule, h.inputs.a, h.inputs.b, h.inputs.c⟩, h.loaded, h.driven⟩,
      .inr ⟨⟨rfl, rfl⟩, ⟨rfl, rfl⟩⟩⟩

/-- A port that is driven samples the same word in every state. -/
theorem readSource_of_isWord {p : PortSource} (h : p.isWord = true) (s t : State) :
    readSource s p = readSource t p := by
  cases p with
  | word w => rfl
  | result flip => exact absurd h Bool.false_ne_true

theorem step_twins {s t s' t' : State} (h : Twins s t) (hs : step s = .next s')
    (ht : step t = .next t') : Twins s' t' ∧ SameReadOrKept s t s' t' := by
  rcases step_cases hs with ⟨nothing, rfl⟩ | ⟨e, rest, scheduled, ran⟩
  · rw [step_of_empty_eq (h.inputs.schedule ▸ nothing), ← h.inputs.a, ← h.inputs.b,
      ← h.inputs.c] at ht
    cases ht
    obtain ⟨twins, same⟩ := h.clockEdge s.a s.b s.c (fma s.a s.b s.c)
    exact ⟨twins, .inl same⟩
  rw [step_of_event (h.inputs.schedule ▸ scheduled)] at ht
  have tail := h.tail scheduled
  rcases runEvent_cases ran with ⟨bytes, i, rfl, decoded, executed⟩ | ⟨a, b, c, rfl, executed⟩ |
    ⟨rfl, rfl⟩
  · rw [runEvent_present decoded] at ht
    obtain ⟨twins, same⟩ := exec_twins tail executed ht
    exact ⟨twins, same⟩
  · obtain ⟨wordA, wordB, wordC⟩ := h.driven a b c (scheduled ▸ List.mem_cons_self)
    rw [runEvent_wire, ← exec_fma, readSource_of_isWord wordA _ { s with schedule := rest },
      readSource_of_isWord wordB _ { s with schedule := rest },
      readSource_of_isWord wordC _ { s with schedule := rest }] at ht
    obtain ⟨twins, same⟩ := exec_twins tail executed ht
    exact ⟨twins, same⟩
  · rw [runEvent_reset] at ht
    cases ht
    refine ⟨tail.resetRegister, .inl ?_⟩
    rw [readOutputPort_of_not_loaded rfl, readOutputPort_of_not_loaded rfl]

theorem run_twins {k : Nat} {s t s' t' : State} (h : Twins s t)
    (hs : Host.Core.run Sys2Proof.core k s = .next s')
    (ht : Host.Core.run Sys2Proof.core k t = .next t') :
    Twins s' t' ∧ SameReadOrKept s t s' t' := by
  induction k generalizing s t with
  | zero =>
    cases hs
    cases ht
    exact ⟨h, .inr ⟨⟨rfl, rfl⟩, ⟨rfl, rfl⟩⟩⟩
  | succ k ih =>
    obtain ⟨u, stepS, onS⟩ := step_of_run_succ hs
    obtain ⟨v, stepT, onT⟩ := step_of_run_succ ht
    obtain ⟨twins, first⟩ := step_twins h stepS stepT
    obtain ⟨twins', later⟩ := ih twins onS onT
    exact ⟨twins', first.trans later⟩

/-- A first step with held inputs or a presented triple is an edge, after which both ports read the
same. -/
theorem read_of_first_edge {s t u v : State} (h : Twins s t)
    (edge : s.schedule = [] ∨ ∃ a b c rest, s.schedule = .present (encode (.fma a b c)) :: rest)
    (hs : step s = .next u) (ht : step t = .next v) : readOutputPort u = readOutputPort v := by
  rcases edge with nothing | ⟨a, b, c, rest, presented⟩
  · rw [step_of_empty_eq nothing] at hs
    rw [step_of_empty_eq (h.inputs.schedule ▸ nothing), ← h.inputs.a, ← h.inputs.b,
      ← h.inputs.c] at ht
    cases hs
    cases ht
    rfl
  · rw [step_of_present_fma presented] at hs
    rw [step_of_present_fma (h.inputs.schedule ▸ presented)] at ht
    cases hs
    cases ht
    rfl

/-- Settles O46: twins stay twins, and what a consumer reads from them stays the same once it is. -/
theorem resultsDoNotDependOnHistory : Obligations.ResultsDoNotDependOnHistory := by
  intro k s t s' t' inputs loaded driven hs ht
  have start : Twins s t := ⟨inputs, loaded, driven⟩
  obtain ⟨twins, same⟩ := run_twins start hs ht
  refine ⟨twins.inputs, twins.loaded, same.imp_right fun kept => ⟨kept.1.1, kept.2.1⟩, ?edge⟩
  case edge =>
    intro positive edge
    obtain ⟨k, rfl⟩ := Nat.exists_eq_add_of_lt positive
    rw [Nat.zero_add] at hs ht
    obtain ⟨u, stepS, onS⟩ := step_of_run_succ hs
    obtain ⟨v, stepT, onT⟩ := step_of_run_succ ht
    obtain ⟨twins', -⟩ := step_twins start stepS stepT
    obtain ⟨-, later⟩ := run_twins twins' onS onT
    exact later.read (read_of_first_edge start edge stepS stepT)

end Sys2Proof.Machine
end

section
/-!
FusedMultiplyAdd (45_fma.md), the inside of the datapath: the normalized product (R123), the
alignment (R125), the five cases of R124 to R128 with their exact sums and differences, and the
ranges of R178.
-/

namespace Sys2Proof.Machine

/-! ### The normalized product (R123) -/

/-- A bit 61 of a 62-bit number is a comparison. -/
theorem productTopBit_eq (m : Acc) : productTopBit m = decide (2 ^ 61 ≤ m.toNat) := by
  have hm : m.toNat < 2 ^ 62 := m.isLt
  have bit : m.toNat / 2 ^ 61 % 2 = 1 ↔ 2 ^ 61 ≤ m.toNat := by omega
  rw [productTopBit, BitVec.getLsbD, Nat.testBit_eq_decide_div_mod_eq, decide_eq_decide]
  exact bit

theorem normalizeProduct_of_lt {p : WideFloat} (h : p.mantissa.toNat < 2 ^ 61) :
    normalizeProduct p = p := by
  rw [normalizeProduct, productTopBit_eq, decide_eq_false (not_le.mpr h)]
  rfl

theorem normalizeProduct_of_le {p : WideFloat} (h : 2 ^ 61 ≤ p.mantissa.toNat) :
    normalizeProduct p = ⟨p.sign, p.exponent + 1, p.mantissa >>> 1⟩ := by
  rw [normalizeProduct, productTopBit_eq, decide_eq_true h]
  rfl

/-- Both outcomes of the one-bit normalization of a product of unpacked words: nothing to do, or an
even mantissa halved. -/
theorem fmaProduct_cases (a b : Word) :
    ((product (splitFloat a) (splitFloat b)).mantissa.toNat < 2 ^ 61 ∧
      fmaProduct a b = product (splitFloat a) (splitFloat b)) ∨
    (2 ^ 61 ≤ (product (splitFloat a) (splitFloat b)).mantissa.toNat ∧
      (fmaProduct a b).sign = (product (splitFloat a) (splitFloat b)).sign ∧
      (fmaProduct a b).exponent = (product (splitFloat a) (splitFloat b)).exponent + 1 ∧
      2 * (fmaProduct a b).mantissa.toNat =
        (product (splitFloat a) (splitFloat b)).mantissa.toNat) := by
  rcases Nat.lt_or_ge (product (splitFloat a) (splitFloat b)).mantissa.toNat (2 ^ 61) with h | h
  · exact .inl ⟨h, normalizeProduct_of_lt h⟩
  · have even : 2 ∣ (product (splitFloat a) (splitFloat b)).mantissa.toNat :=
      Dvd.dvd.trans (by decide) (dvd_product_splitFloat_mantissa a b)
    rw [fmaProduct, normalizeProduct_of_le h]
    refine .inr ⟨h, rfl, rfl, ?_⟩
    rw [BitVec.toNat_ushiftRight, Nat.shiftRight_one, Nat.mul_div_cancel' even]

@[simp] theorem fmaProduct_sign (a b : Word) :
    (fmaProduct a b).sign = (signOf a != signOf b) := by
  rcases fmaProduct_cases a b with ⟨-, same⟩ | ⟨-, sign, -, -⟩
  · rw [same]
    rfl
  · rw [sign]
    rfl

theorem fmaProduct_mantissa_toNat_eq_zero_iff (a b : Word) :
    (fmaProduct a b).mantissa.toNat = 0 ↔ exponentField a = 0#8 ∨ exponentField b = 0#8 := by
  rw [← product_splitFloat_mantissa_eq_zero_iff]
  rcases fmaProduct_cases a b with ⟨-, same⟩ | ⟨-, -, -, halved⟩
  · rw [same]
  · omega

theorem fmaProduct_mantissa_eq_zero_iff (a b : Word) :
    (fmaProduct a b).mantissa = 0#62 ↔ exponentField a = 0#8 ∨ exponentField b = 0#8 := by
  rw [← fmaProduct_mantissa_toNat_eq_zero_iff, ← BitVec.toNat_inj]
  rfl

theorem fmaProduct_mantissa_lt (a b : Word) : (fmaProduct a b).mantissa.toNat < 2 ^ 61 := by
  have hp := (product (splitFloat a) (splitFloat b)).mantissa.isLt
  rcases fmaProduct_cases a b with ⟨small, same⟩ | ⟨-, -, -, halved⟩
  · rwa [same]
  · omega

theorem le_fmaProduct_mantissa {a b : Word} (h : (fmaProduct a b).mantissa ≠ 0#62) :
    2 ^ 60 ≤ (fmaProduct a b).mantissa.toNat := by
  rw [Ne, fmaProduct_mantissa_eq_zero_iff, not_or] at h
  have large := le_product_splitFloat_mantissa h.1 h.2
  rcases fmaProduct_cases a b with ⟨-, same⟩ | ⟨large', -, -, halved⟩
  · rwa [same]
  · omega

theorem dvd_fmaProduct_mantissa (a b : Word) : 2 ^ 13 ∣ (fmaProduct a b).mantissa.toNat := by
  have low := dvd_product_splitFloat_mantissa a b
  rcases fmaProduct_cases a b with ⟨-, same⟩ | ⟨-, -, -, halved⟩
  · rw [same]
    omega
  · omega

theorem fmaProduct_exponent_range (a b : Word) :
    -254 ≤ (fmaProduct a b).exponent ∧ (fmaProduct a b).exponent ≤ 257 := by
  have rangeA := splitFloat_exponent_range a
  have rangeB := splitFloat_exponent_range b
  have exponent := product_exponent (splitFloat a) (splitFloat b)
  rcases fmaProduct_cases a b with ⟨-, same⟩ | ⟨-, -, raised, -⟩
  · rw [same]
    omega
  · omega

/-- Settles O29: the mantissa that is halved is even, and everything else is a range of the product
or of its halves. -/
theorem productNormalizationIsExact : Obligations.ProductNormalizationIsExact := by
  intro a b p0 p
  refine ⟨fmaProduct_sign a b, ?exact, ?normal,
    Nat.mod_eq_zero_of_dvd (dvd_fmaProduct_mantissa a b), fmaProduct_exponent_range a b⟩
  case exact =>
    rcases fmaProduct_cases a b with ⟨-, same⟩ | ⟨-, -, raised, halved⟩
    · exact .inl ⟨congrArg (·.mantissa.toNat) same, congrArg WideFloat.exponent same⟩
    · exact .inr ⟨halved, raised⟩
  case normal =>
    by_cases zero : p.mantissa = 0#62
    · exact .inl (by rw [zero]; rfl)
    · exact .inr ⟨le_fmaProduct_mantissa zero, fmaProduct_mantissa_lt a b⟩

/-! ### The exponents of nonzero operands -/

theorem splitFloat_exponent_of_nonzero {x : Word} (h : (splitFloat x).mantissa ≠ 0#31) :
    -126 ≤ (splitFloat x).exponent := by
  have low := (splitFloat_exponent_range x).1
  have off := mt (splitFloat_exponent_eq_iff x).mp (mt splitFloat_mantissa_eq_zero.mpr h)
  omega

theorem fmaProduct_exponent_of_nonzero {a b : Word} (h : (fmaProduct a b).mantissa ≠ 0#62) :
    -252 ≤ (fmaProduct a b).exponent := by
  rw [Ne, fmaProduct_mantissa_eq_zero_iff, not_or, ← splitFloat_mantissa_eq_zero,
    ← splitFloat_mantissa_eq_zero] at h
  have lowA := splitFloat_exponent_of_nonzero h.1
  have lowB := splitFloat_exponent_of_nonzero h.2
  have exponent := product_exponent (splitFloat a) (splitFloat b)
  rcases fmaProduct_cases a b with ⟨-, same⟩ | ⟨-, -, raised, -⟩
  · rw [same]
    omega
  · omega

/-! ### Alignment (R125) -/

/-- The pre-scaled addend fits the accumulator with a bit to spare. -/
theorem prescaled_toNat (c : UnpackedFloat) : (prescaled c).toNat = c.mantissa.toNat * 2 ^ 30 := by
  have hc : c.mantissa.toNat < 2 ^ 31 := c.mantissa.isLt
  have fits : c.mantissa.toNat * 2 ^ 30 < 2 ^ 62 := by omega
  rw [prescaled, BitVec.toNat_shiftLeft, BitVec.toNat_setWidth_of_le (by decide), Nat.shiftLeft_eq]
  exact Nat.mod_eq_of_lt fits

theorem prescaled_lt (c : UnpackedFloat) : (prescaled c).toNat < 2 ^ 61 := by
  have hc : c.mantissa.toNat < 2 ^ 31 := c.mantissa.isLt
  rw [prescaled_toNat]
  omega

theorem le_prescaled_splitFloat {c : Word} (h : (splitFloat c).mantissa ≠ 0#31) :
    2 ^ 60 ≤ (prescaled (splitFloat c)).toNat := by
  have normal := le_splitFloat_mantissa_of_nonzero (mt splitFloat_mantissa_eq_zero.mpr h)
  rw [prescaled_toNat]
  omega

theorem dvd_prescaled_splitFloat (c : Word) : 2 ^ 37 ∣ (prescaled (splitFloat c)).toNat := by
  have low := dvd_splitFloat_mantissa c
  rw [prescaled_toNat]
  omega

/-- The product is shifted by how far its exponent is below the addend's. -/
theorem alignedProduct_toNat (p : WideFloat) (c : UnpackedFloat) :
    (alignedProduct p c).toNat = stickyDiv p.mantissa.toNat (-expDiff p c).toNat := by
  rw [alignedProduct]
  split
  case isTrue positive => rw [Int.toNat_eq_zero.mpr (by omega), stickyDiv_zero_right]
  case isFalse => exact stickyShift_toNat _ _

/-- The addend is shifted by how far its exponent is below the product's. -/
theorem alignedAddend_toNat (p : WideFloat) (c : UnpackedFloat) :
    (alignedAddend p c).toNat = stickyDiv (prescaled c).toNat (expDiff p c).toNat := by
  rw [alignedAddend]
  split
  case isTrue => exact stickyShift_toNat _ _
  case isFalse nonpositive => rw [Int.toNat_eq_zero.mpr (by omega), stickyDiv_zero_right]

theorem alignedProduct_of_nonneg {p : WideFloat} {c : UnpackedFloat} (h : 0 ≤ expDiff p c) :
    (alignedProduct p c).toNat = p.mantissa.toNat := by
  rw [alignedProduct_toNat, Int.toNat_eq_zero.mpr (by omega), stickyDiv_zero_right]

theorem alignedAddend_of_nonpos {p : WideFloat} {c : UnpackedFloat} (h : expDiff p c ≤ 0) :
    (alignedAddend p c).toNat = (prescaled c).toNat := by
  rw [alignedAddend_toNat, Int.toNat_eq_zero.mpr h, stickyDiv_zero_right]

/-- A number of 61 bits that is shifted at all falls below bit 60. -/
theorem stickyDiv_lt_of_pos {v n : Nat} (h : v < 2 ^ 61) (hn : n ≠ 0) : stickyDiv v n < 2 ^ 60 := by
  have room : 2 ^ 61 ≤ 2 ^ 60 * 2 ^ n := by
    rw [← pow_add]
    exact Nat.pow_le_pow_right (by decide) (by omega)
  exact (stickyDiv_lt_iff (by decide)).mpr (h.trans_le room)

theorem alignedProduct_lt_of_neg {a b : Word} {c : UnpackedFloat}
    (h : expDiff (fmaProduct a b) c < 0) : (alignedProduct (fmaProduct a b) c).toNat < 2 ^ 60 := by
  rw [alignedProduct_toNat]
  exact stickyDiv_lt_of_pos (fmaProduct_mantissa_lt a b) (by omega)

theorem alignedAddend_lt_of_pos {p : WideFloat} {c : UnpackedFloat} (h : 0 < expDiff p c) :
    (alignedAddend p c).toNat < 2 ^ 60 := by
  rw [alignedAddend_toNat]
  exact stickyDiv_lt_of_pos (prescaled_lt c) (by omega)

theorem aligned_add_lt (a b : Word) (c : UnpackedFloat) :
    (alignedProduct (fmaProduct a b) c).toNat + (alignedAddend (fmaProduct a b) c).toNat <
      2 ^ 62 := by
  have product_lt := fmaProduct_mantissa_lt a b
  have addend_lt := prescaled_lt c
  have product_le := stickyDiv_le_self (fmaProduct a b).mantissa.toNat
    (-expDiff (fmaProduct a b) c).toNat
  have addend_le := stickyDiv_le_self (prescaled c).toNat (expDiff (fmaProduct a b) c).toNat
  rw [alignedProduct_toNat, alignedAddend_toNat]
  omega

/-- Alignment loses no operand altogether: a nonzero product stays nonzero. -/
theorem alignedProduct_pos {p : WideFloat} (h : p.mantissa ≠ 0#62) (c : UnpackedFloat) :
    0 < (alignedProduct p c).toNat := by
  rw [alignedProduct_toNat, Nat.pos_iff_ne_zero, Ne, stickyDiv_eq_zero_iff]
  exact toNat_ne_zero h

theorem alignedAddend_pos {c : UnpackedFloat} (h : (prescaled c).toNat ≠ 0) (p : WideFloat) :
    0 < (alignedAddend p c).toNat := by
  rwa [alignedAddend_toNat, Nat.pos_iff_ne_zero, Ne, stickyDiv_eq_zero_iff]

/-! ### The cases of an evaluation (R124 to R128) -/

section
variable {p : WideFloat} {c : UnpackedFloat}

theorem fmaTriple_of_product_zero (hp : p.mantissa = 0#62) : fmaTriple p c = c := by
  simp [fmaTriple, fmaTag, hp]

theorem fmaTriple_of_addend_zero (hp : p.mantissa ≠ 0#62) (hc : c.mantissa = 0#31) :
    fmaTriple p c = renormalizeFloat p := by
  simp [fmaTriple, fmaTag, hp, hc]

theorem fmaTriple_of_same_sign (hp : p.mantissa ≠ 0#62) (hc : c.mantissa ≠ 0#31)
    (hs : p.sign = c.sign) : fmaTriple p c = renormalizeFloat (addAligned p c) := by
  simp [fmaTriple, fmaTag, hp, hc, hs]

theorem fmaTriple_of_product_larger (hp : p.mantissa ≠ 0#62) (hc : c.mantissa ≠ 0#31)
    (hs : p.sign ≠ c.sign) (hl : productLarger p c = true) :
    fmaTriple p c = renormalizeFloat (subtractFromProduct p c) := by
  simp [fmaTriple, fmaTag, hp, hc, hs, hl]

theorem fmaTriple_of_addend_larger (hp : p.mantissa ≠ 0#62) (hc : c.mantissa ≠ 0#31)
    (hs : p.sign ≠ c.sign) (hl : productLarger p c = false) :
    fmaTriple p c = renormalizeFloat (subtractFromAddend p c) := by
  simp [fmaTriple, fmaTag, hp, hc, hs, hl]

theorem productLarger_iff : productLarger p c = true ↔
    0 < expDiff p c ∨ (expDiff p c = 0 ∧ (prescaled c).toNat < p.mantissa.toNat) := by
  simp only [productLarger, Bool.or_eq_true, Bool.and_eq_true, decide_eq_true_iff]

theorem addAligned_of_pos (h : 0 < expDiff p c) :
    (addAligned p c).sign = p.sign ∧ (addAligned p c).exponent = p.exponent :=
  ⟨if_neg (not_le.mpr h), if_neg (not_le.mpr h)⟩

theorem addAligned_of_nonpos (h : expDiff p c ≤ 0) :
    (addAligned p c).sign = c.sign ∧ (addAligned p c).exponent = c.exponent :=
  ⟨if_pos h, if_pos h⟩

theorem subtractFromProduct_toNat : (subtractFromProduct p c).mantissa.toNat =
    (alignedProduct p c).toNat - (alignedAddend p c).toNat := by
  have fits := (alignedProduct p c).isLt
  rw [subtractFromProduct, BitVec.toNat_ofNat, Nat.mod_eq_of_lt (by omega)]

theorem subtractFromAddend_toNat : (subtractFromAddend p c).mantissa.toNat =
    (alignedAddend p c).toNat - (alignedProduct p c).toNat := by
  have fits := (alignedAddend p c).isLt
  rw [subtractFromAddend, BitVec.toNat_ofNat, Nat.mod_eq_of_lt (by omega)]

end

theorem addAligned_toNat (a b : Word) (c : UnpackedFloat) :
    (addAligned (fmaProduct a b) c).mantissa.toNat =
      (alignedProduct (fmaProduct a b) c).toNat + (alignedAddend (fmaProduct a b) c).toNat := by
  rw [addAligned, BitVec.toNat_ofNat, Nat.mod_eq_of_lt (aligned_add_lt a b c)]

/-! ### Sums and differences (R126, R127) -/

/-- The operand that is not shifted has bit 60 set, and the other is at least 1. -/
theorem le_aligned_add {a b c : Word} (hp : (fmaProduct a b).mantissa ≠ 0#62)
    (hc : (splitFloat c).mantissa ≠ 0#31) :
    2 ^ 60 + 1 ≤ (alignedProduct (fmaProduct a b) (splitFloat c)).toNat +
      (alignedAddend (fmaProduct a b) (splitFloat c)).toNat := by
  have product_large := le_fmaProduct_mantissa hp
  have addend_large := le_prescaled_splitFloat hc
  have product_pos := alignedProduct_pos hp (splitFloat c)
  have addend_pos := alignedAddend_pos (c := splitFloat c) (by omega) (fmaProduct a b)
  rcases le_or_gt 0 (expDiff (fmaProduct a b) (splitFloat c)) with h | h
  · rw [alignedProduct_of_nonneg h]
    omega
  · rw [alignedAddend_of_nonpos h.le]
    omega

/-- Settles O30: the sum fits 62 bits, so it is exact. -/
theorem alignedSumIsExact : Obligations.AlignedSumIsExact := by
  intro a b c p C hp hc hs
  refine ⟨fmaTriple_of_same_sign hp hc hs, addAligned_toNat a b C, ?large, addAligned_of_nonpos,
    addAligned_of_pos⟩
  case large =>
    rw [addAligned_toNat a b C]
    exact le_aligned_add hp hc

/-- The comparison of R127 decides which aligned mantissa is larger. -/
theorem aligned_lt_of_productLarger {a b : Word} {c : UnpackedFloat}
    (hp : (fmaProduct a b).mantissa ≠ 0#62) (hl : productLarger (fmaProduct a b) c = true) :
    (alignedAddend (fmaProduct a b) c).toNat < (alignedProduct (fmaProduct a b) c).toNat := by
  rcases productLarger_iff.mp hl with positive | ⟨zero, smaller⟩
  · rw [alignedProduct_of_nonneg positive.le]
    exact (alignedAddend_lt_of_pos positive).trans_le (le_fmaProduct_mantissa hp)
  · rwa [alignedProduct_of_nonneg zero.ge, alignedAddend_of_nonpos zero.le]

/-- Where the product is not larger, its aligned mantissa is strictly smaller when it is shifted. -/
theorem aligned_le_of_not_productLarger {a b c : Word}
    (hc : (splitFloat c).mantissa ≠ 0#31)
    (hl : productLarger (fmaProduct a b) (splitFloat c) = false) :
    (expDiff (fmaProduct a b) (splitFloat c) < 0 ∧
      (alignedProduct (fmaProduct a b) (splitFloat c)).toNat <
        (alignedAddend (fmaProduct a b) (splitFloat c)).toNat) ∨
    (expDiff (fmaProduct a b) (splitFloat c) = 0 ∧
      (fmaProduct a b).mantissa.toNat ≤ (prescaled (splitFloat c)).toNat) := by
  have not_larger := mt productLarger_iff.mpr (Bool.eq_false_iff.mp hl)
  rcases lt_trichotomy (expDiff (fmaProduct a b) (splitFloat c)) 0 with negative | zero | positive
  · refine .inl ⟨negative, ?_⟩
    rw [alignedAddend_of_nonpos negative.le]
    exact (alignedProduct_lt_of_neg negative).trans_le (le_prescaled_splitFloat hc)
  · exact .inr ⟨zero, not_lt.mp fun smaller => not_larger (.inr ⟨zero, smaller⟩)⟩
  · exact absurd (.inl positive) not_larger

/-- Settles O31: the comparison orders the aligned mantissas, so neither difference is cut off. -/
theorem alignedDifferenceIsExact : Obligations.AlignedDifferenceIsExact := by
  intro a b c p C pa ca hp hc hs
  refine ⟨fun hl => ?product, fun hl => ?addend⟩
  case product =>
    have smaller : (alignedAddend p C).toNat < (alignedProduct p C).toNat :=
      aligned_lt_of_productLarger hp hl
    refine ⟨fmaTriple_of_product_larger hp hc hs hl, rfl, rfl, ?_, by omega⟩
    rw [subtractFromProduct_toNat, Nat.cast_sub smaller.le]
  case addend =>
    refine ⟨fmaTriple_of_addend_larger hp hc hs hl, rfl, rfl, ?_⟩
    rw [subtractFromAddend_toNat]
    rcases aligned_le_of_not_productLarger hc hl with ⟨negative, smaller⟩ | ⟨zero, le⟩
    · have smaller' : pa < ca := Nat.cast_lt.mpr smaller
      have nonzero : expDiff p C ≠ 0 := negative.ne
      exact ⟨Nat.cast_sub smaller.le, by omega⟩
    · have product_kept : (alignedProduct p C).toNat = p.mantissa.toNat :=
        alignedProduct_of_nonneg zero.ge
      have addend_kept : (alignedAddend p C).toNat = (prescaled C).toNat :=
        alignedAddend_of_nonpos zero.le
      have le' : (alignedProduct p C).toNat ≤ (alignedAddend p C).toNat := by
        rwa [product_kept, addend_kept]
      refine ⟨Nat.cast_sub le', ?_⟩
      rw [← BitVec.toNat_inj, ← product_kept, ← addend_kept, and_iff_right zero, sub_eq_zero,
        Nat.cast_inj, eq_comm]

/-! ### The wiring (R120) -/

section
variable {p : WideFloat} {c : UnpackedFloat} (hp : p.mantissa ≠ 0#62) (hc : c.mantissa ≠ 0#31)
include hp hc

theorem fmaTriple_add_of_pos (hs : p.sign = c.sign) (h : 0 < expDiff p c) :
    fmaTriple p c = renormalize p.sign p.exponent
      (BitVec.ofNat 62 (p.mantissa.toNat +
        (stickyShift (prescaled c) (expDiff p c).toNat).toNat)) := by
  obtain ⟨sign, exponent⟩ := addAligned_of_pos h
  rw [fmaTriple_of_same_sign hp hc hs, renormalizeFloat, sign, exponent, addAligned,
    alignedProduct_of_nonneg h.le, alignedAddend_toNat, stickyShift_toNat]

theorem fmaTriple_add_of_nonpos (hs : p.sign = c.sign) (h : expDiff p c ≤ 0) :
    fmaTriple p c = renormalize c.sign c.exponent
      (BitVec.ofNat 62 ((stickyShift p.mantissa (-expDiff p c).toNat).toNat +
        (prescaled c).toNat)) := by
  obtain ⟨sign, exponent⟩ := addAligned_of_nonpos h
  rw [fmaTriple_of_same_sign hp hc hs, renormalizeFloat, sign, exponent, addAligned,
    alignedAddend_of_nonpos h, alignedProduct_toNat, stickyShift_toNat]

/-- At equal exponents the shift by 0 leaves the pre-scaled addend. -/
theorem fmaTriple_sub_of_larger (hs : p.sign ≠ c.sign) (h : 0 ≤ expDiff p c)
    (hl : productLarger p c = true) :
    fmaTriple p c = renormalize p.sign p.exponent
      (BitVec.ofNat 62 (p.mantissa.toNat -
        (stickyShift (prescaled c) (expDiff p c).toNat).toNat)) := by
  rw [fmaTriple_of_product_larger hp hc hs hl, renormalizeFloat, subtractFromProduct,
    alignedProduct_of_nonneg h, alignedAddend_toNat, stickyShift_toNat]

/-- At equal exponents the shift by 0 leaves the product. -/
theorem fmaTriple_sub_of_not_larger (hs : p.sign ≠ c.sign) (h : expDiff p c ≤ 0)
    (hl : productLarger p c = false) :
    fmaTriple p c = renormalize c.sign c.exponent
      (BitVec.ofNat 62 ((prescaled c).toNat -
        (stickyShift p.mantissa (-expDiff p c).toNat).toNat)) := by
  rw [fmaTriple_of_addend_larger hp hc hs hl, renormalizeFloat, subtractFromAddend,
    alignedAddend_of_nonpos h, alignedProduct_toNat, stickyShift_toNat]

end

/-- The normalized product as three numbers. -/
theorem fmaProduct_eq (a b : Word) :
    fmaProduct a b =
      ⟨signOf a != signOf b,
        (splitFloat a).exponent + (splitFloat b).exponent +
          (if 2 ^ 61 ≤ (splitFloat a).mantissa.toNat * (splitFloat b).mantissa.toNat then 1 else 0),
        BitVec.ofNat 62
          (if 2 ^ 61 ≤ (splitFloat a).mantissa.toNat * (splitFloat b).mantissa.toNat then
            (splitFloat a).mantissa.toNat * (splitFloat b).mantissa.toNat / 2
          else (splitFloat a).mantissa.toNat * (splitFloat b).mantissa.toNat)⟩ := by
  rw [← product_mantissa_toNat]
  split
  case isTrue large =>
    rw [fmaProduct, normalizeProduct_of_le large, ← Nat.shiftRight_one, ← BitVec.toNat_ushiftRight,
      BitVec.ofNat_toNat, BitVec.setWidth_eq]
    rfl
  case isFalse small =>
    rw [fmaProduct, normalizeProduct_of_lt (not_le.mp small), BitVec.ofNat_toNat,
      BitVec.setWidth_eq, add_zero]
    rfl

theorem prescaled_eq (c : UnpackedFloat) :
    prescaled c = BitVec.ofNat 62 (c.mantissa.toNat * 2 ^ 30) := by
  rw [← prescaled_toNat, BitVec.ofNat_toNat, BitVec.setWidth_eq]

/-- Settles O27: the normalized product and the pre-scaled addend are the numbers of the statement,
and each clause is a case of `fmaTriple` at its sign of `expDiff`. -/
theorem fmaIsTheWiringOfItsBlocks : Obligations.FmaIsTheWiringOfItsBlocks := by
  intro a b c s A B C ps pm0 pm pe cm d acc cs pa
  have product_eq : fmaProduct a b = ⟨ps, pe, acc pm⟩ := fmaProduct_eq a b
  have sign : (fmaProduct a b).sign = ps := by rw [product_eq]
  have exponent : (fmaProduct a b).exponent = pe := by rw [product_eq]
  have mantissa : (fmaProduct a b).mantissa = acc pm := by rw [product_eq]
  have addend : prescaled C = acc cm := prescaled_eq C
  have distance : expDiff (fmaProduct a b) C = d := by rw [expDiff, exponent]
  have product_number : (acc pm).toNat = pm := by
    have fits : pm0 < 2 ^ 62 := (product_mantissa_toNat A B).symm.trans_lt (BitVec.isLt _)
    have halved : pm ≤ pm0 := by
      simp only [pm]
      split <;> omega
    rw [BitVec.toNat_ofNat, Nat.mod_eq_of_lt (by omega)]
  have addend_number : (acc cm).toNat = cm := addend ▸ prescaled_toNat C
  have nonzero (h : pm ≠ 0) : (fmaProduct a b).mantissa ≠ 0#62 := by
    intro zero
    rw [← mantissa, zero] at product_number
    exact h product_number.symm
  have larger : productLarger (fmaProduct a b) C = true ↔ 0 < d ∨ (d = 0 ∧ cm < pm) := by
    rw [productLarger_iff, distance, addend, mantissa, addend_number, product_number]
  refine ⟨fmaTriple (fmaProduct a b) C, exec_fma a b c s, ?pass, ?product, ?add, ?subtract⟩
  case pass =>
    intro zero
    have no_product : (acc pm).toNat = (0#62 : Acc).toNat := product_number.trans zero
    exact fmaTriple_of_product_zero (mantissa.trans (BitVec.eq_of_toNat_eq no_product))
  case product =>
    intro hp hc
    rw [fmaTriple_of_addend_zero (nonzero hp) hc, product_eq, renormalizeFloat]
  case add =>
    intro hp hc hs
    have hs' := sign.trans hs
    constructor
    · intro positive
      rw [fmaTriple_add_of_pos (nonzero hp) hc hs' (distance ▸ positive), distance, sign, exponent,
        mantissa, addend, product_number]
    · intro nonpositive
      rw [fmaTriple_add_of_nonpos (nonzero hp) hc hs' (distance ▸ nonpositive), distance, mantissa,
        addend, addend_number]
  case subtract =>
    intro hp hc hs
    have hs' : (fmaProduct a b).sign ≠ C.sign := sign ▸ hs
    have from_product (h : 0 ≤ d) (hl : 0 < d ∨ (d = 0 ∧ cm < pm)) :
        fmaTriple (fmaProduct a b) C = renormalize ps pe (acc (pm - cs)) := by
      rw [fmaTriple_sub_of_larger (nonzero hp) hc hs' (distance ▸ h) (larger.mpr hl), distance,
        sign, exponent, mantissa, addend, product_number]
    have from_addend (h : d ≤ 0) (hl : ¬ (0 < d ∨ (d = 0 ∧ cm < pm))) :
        fmaTriple (fmaProduct a b) C = renormalize C.sign C.exponent (acc (cm - pa)) := by
      rw [fmaTriple_sub_of_not_larger (nonzero hp) hc hs' (distance ▸ h)
        (Bool.eq_false_iff.mpr (mt larger.mp hl)), distance, mantissa, addend, addend_number]
    have unshifted (zero : d = 0) : cs = cm ∧ pa = pm := by
      simp only [cs, pa, zero, neg_zero, Int.toNat_zero, stickyShift_amount_zero, addend_number,
        product_number, and_self]
    refine ⟨fun positive => ?_, fun zero smaller => ?_, fun zero le => ?_, fun negative => ?_⟩
    · exact from_product positive.le (.inl positive)
    · rw [from_product zero.ge (.inr ⟨zero, smaller⟩), (unshifted zero).1]
    · rw [from_addend zero.le (by omega), (unshifted zero).2]
    · exact from_addend negative.le (by omega)

/-! ### The range table (R178) -/

/-- What is renormalized when the product is not zero. -/
def wideOperand (p : WideFloat) (c : UnpackedFloat) : WideFloat :=
  match fmaTag p c with
  | .pass => p
  | .prod => p
  | .add => addAligned p c
  | .subP => subtractFromProduct p c
  | .subC => subtractFromAddend p c

theorem fmaTriple_eq_wideOperand {p : WideFloat} (h : p.mantissa ≠ 0#62) (c : UnpackedFloat) :
    fmaTriple p c = renormalizeFloat (wideOperand p c) := by
  rcases fmaTriple_cases p c with ⟨-, zero, -⟩ | ⟨tag, -, -, triple⟩ | ⟨tag, -, -, -, triple⟩ |
    ⟨tag, -, -, -, -, triple⟩ | ⟨tag, -, -, -, -, triple⟩
  · exact absurd zero h
  all_goals rw [triple, wideOperand, tag]

/-- The wide operand goes under the exponent of the product or of a nonzero addend. -/
theorem wideOperand_exponent (p : WideFloat) (c : UnpackedFloat) :
    (wideOperand p c).exponent = p.exponent ∨
      (c.mantissa ≠ 0#31 ∧ (wideOperand p c).exponent = c.exponent) := by
  rcases fmaTriple_cases p c with ⟨tag, -⟩ | ⟨tag, -⟩ | ⟨tag, -, hc, -⟩ | ⟨tag, -⟩ | ⟨tag, -, hc, -⟩
  · exact .inl (by rw [wideOperand, tag])
  · exact .inl (by rw [wideOperand, tag])
  · rcases le_or_gt (expDiff p c) 0 with nonpositive | positive
    · exact .inr ⟨hc, by rw [wideOperand, tag, (addAligned_of_nonpos nonpositive).2]⟩
    · exact .inl (by rw [wideOperand, tag, (addAligned_of_pos positive).2])
  · exact .inl (by rw [wideOperand, tag, subtractFromProduct])
  · exact .inr ⟨hc, by rw [wideOperand, tag, subtractFromAddend]⟩

theorem wideOperand_exponent_range {a b : Word} (h : (fmaProduct a b).mantissa ≠ 0#62) (c : Word) :
    -252 ≤ (wideOperand (fmaProduct a b) (splitFloat c)).exponent ∧
      (wideOperand (fmaProduct a b) (splitFloat c)).exponent ≤ 257 := by
  have product_low := fmaProduct_exponent_of_nonzero h
  have product_high := (fmaProduct_exponent_range a b).2
  rcases wideOperand_exponent (fmaProduct a b) (splitFloat c) with same | ⟨hc, same⟩
  · omega
  · have addend_low := splitFloat_exponent_of_nonzero hc
    have addend_high := (splitFloat_exponent_range c).2
    omega

/-- Renormalize moves the exponent down by `clz - 1`, which is at most 60. -/
theorem renormalizeFloat_of_ne_zero {x : WideFloat} (h : x.mantissa ≠ 0#62) :
    clz x.mantissa ≤ 61 ∧ (renormalizeFloat x).exponent = x.exponent - clz x.mantissa + 1 := by
  refine ⟨(clzIsTheDistanceOfTheHighestBit x.mantissa h).1, ?_⟩
  rw [renormalizeFloat, renormalize_of_ne_zero h]

theorem fmaTriple_exponent_range (a b c : Word) :
    -312 ≤ (fmaTriple (fmaProduct a b) (splitFloat c)).exponent ∧
      (fmaTriple (fmaProduct a b) (splitFloat c)).exponent ≤ 258 := by
  by_cases hp : (fmaProduct a b).mantissa = 0#62
  · have addend := splitFloat_exponent_range c
    rw [fmaTriple_of_product_zero hp]
    omega
  rw [fmaTriple_eq_wideOperand hp]
  have range := wideOperand_exponent_range hp c
  by_cases hx : (wideOperand (fmaProduct a b) (splitFloat c)).mantissa = 0#62
  · rw [renormalizeFloat, hx, renormalize_zero]
    exact ⟨by decide, by decide⟩
  · obtain ⟨count, moved⟩ := renormalizeFloat_of_ne_zero hx
    omega

/-- What is handed to the packer is a zero with the exponent of a zero, or normalized (R131). -/
theorem fmaTriple_normal (a b c : Word) :
    ((fmaTriple (fmaProduct a b) (splitFloat c)).mantissa = 0#31 ∧
      (fmaTriple (fmaProduct a b) (splitFloat c)).exponent = -127) ∨
    2 ^ 30 ≤ (fmaTriple (fmaProduct a b) (splitFloat c)).mantissa.toNat := by
  by_cases hp : (fmaProduct a b).mantissa = 0#62
  · rw [fmaTriple_of_product_zero hp]
    by_cases hc : exponentField c = 0#8
    · exact .inl ⟨splitFloat_mantissa_of_zeroClass hc, (splitFloat_exponent_eq_iff c).mpr hc⟩
    · exact .inr (le_splitFloat_mantissa_of_nonzero hc)
  rw [fmaTriple_eq_wideOperand hp, renormalizeFloat]
  by_cases hx : (wideOperand (fmaProduct a b) (splitFloat c)).mantissa = 0#62
  · rw [hx, renormalize_zero]
    exact .inl ⟨rfl, rfl⟩
  · exact .inr (le_renormalize_mantissa hx _ _)

/-- The rounding carry raises the exponent by one at most. -/
theorem workingExponent_range (e : Int) (m : Mantissa) :
    e ≤ workingExponent e m ∧ workingExponent e m ≤ e + 1 := by
  rw [workingExponent]
  split <;> omega

/-- Settles O41: each row of the table is a range lemma above. -/
theorem intermediateValuesStayInRange : Obligations.IntermediateValuesStayInRange := by
  intro a b c A B C p0 p d wide R wexp
  have operand (x : Word) : -127 ≤ (splitFloat x).exponent ∧ (splitFloat x).exponent ≤ 128 ∧
      ((splitFloat x).mantissa ≠ 0#31 → -126 ≤ (splitFloat x).exponent) :=
    ⟨(splitFloat_exponent_range x).1, (splitFloat_exponent_range x).2,
      splitFloat_exponent_of_nonzero⟩
  obtain ⟨lowA, highA⟩ : -127 ≤ A.exponent ∧ A.exponent ≤ 128 := splitFloat_exponent_range a
  obtain ⟨lowB, highB⟩ : -127 ≤ B.exponent ∧ B.exponent ≤ 128 := splitFloat_exponent_range b
  obtain ⟨lowC, highC⟩ : -127 ≤ C.exponent ∧ C.exponent ≤ 128 := splitFloat_exponent_range c
  obtain ⟨lowP, highP⟩ : -254 ≤ p.exponent ∧ p.exponent ≤ 257 := fmaProduct_exponent_range a b
  have sum : p0.exponent = A.exponent + B.exponent := rfl
  have triple_range : -312 ≤ R.exponent ∧ R.exponent ≤ 258 := fmaTriple_exponent_range a b c
  have working : R.exponent ≤ wexp ∧ wexp ≤ R.exponent + 1 :=
    workingExponent_range R.exponent R.mantissa
  refine ⟨?operands, ⟨by omega, by omega⟩, product_mantissa_toNat A B ▸ BitVec.isLt _,
    ⟨lowP, highP, fmaProduct_exponent_of_nonzero⟩, prescaled_toNat C ▸ prescaled_lt C, ?aligned,
    ?wide, triple_range, fmaTriple_normal a b c, ⟨by omega, by omega⟩, ⟨by omega, by omega⟩⟩
  case operands =>
    simp only [List.forall_mem_cons]
    exact ⟨operand a, operand b, operand c, fun X none => absurd none List.not_mem_nil⟩
  case aligned =>
    intro hp hc
    have low : -252 ≤ p.exponent := fmaProduct_exponent_of_nonzero hp
    have low' : -126 ≤ C.exponent := splitFloat_exponent_of_nonzero hc
    have distance : d = p.exponent - C.exponent := rfl
    exact ⟨by omega, by omega, aligned_add_lt a b C⟩
  case wide =>
    intro hp
    have same : wide = wideOperand p C := rfl
    have triple : R = renormalizeFloat wide := same ▸ fmaTriple_eq_wideOperand hp C
    have range := wideOperand_exponent_range hp c
    refine ⟨triple, range.1, range.2, fun hx => ?_⟩
    rw [triple]
    exact renormalizeFloat_of_ne_zero hx

/-! ### Zero-class operands (R134) and the two factors (R133) -/

theorem fma_of_product_zero {a b : Word} (h : exponentField a = 0#8 ∨ exponentField b = 0#8)
    (c : Word) : fma a b c = flushToZero c := by
  rw [fma, fmaTriple_of_product_zero ((fmaProduct_mantissa_eq_zero_iff a b).mpr h)]
  exact roundAndPack_splitFloat c

theorem flushToZero_eq_ite (x : Word) :
    flushToZero x = if exponentField x = 0#8 then x &&& 0x80000000 else x := by
  simp only [flushToZero, exponentField_eq_zero_iff]

/-- Settles O34: a zero product hands the unpacked addend to the packer. -/
theorem zeroProductPassesTheAddend : Obligations.ZeroProductPassesTheAddend := by
  intro a b c h
  rw [fma_of_product_zero h, flushToZero_eq_ite]

/-- Settles O35: beside a nonzero product a zero addend is read by its mantissa alone. -/
theorem zeroAddendPlaysNoPart : Obligations.ZeroAddendPlaysNoPart := by
  intro a b c c' ha hb hc hc'
  have hp : (fmaProduct a b).mantissa ≠ 0#62 :=
    mt (fmaProduct_mantissa_eq_zero_iff a b).mp (not_or.mpr ⟨ha, hb⟩)
  rw [fma, fma, fmaTriple_of_addend_zero hp (splitFloat_mantissa_of_zeroClass hc),
    fmaTriple_of_addend_zero hp (splitFloat_mantissa_of_zeroClass hc')]

theorem product_comm (x y : UnpackedFloat) : product x y = product y x := by
  rw [product, product, Bool.xor_comm, Int.add_comm, Nat.mul_comm]

/-- Settles O38: the product is symmetric, and nothing else reads the factors. -/
theorem fmaCommutesInItsFactors : Obligations.FmaCommutesInItsFactors := by
  intro a b c
  rw [fma, fma, fmaProduct, fmaProduct, product_comm]

end Sys2Proof.Machine
end

section
/-!
Correct rounding (95_test_vectors.md section 4, run A). A number is rounded to 24 significant bits
by its side of the midpoints between neighbours, and a midpoint of a number of at least 26 bits is
even, so a sticky shift down to that length is invisible to the rounding. Renormalize and the
alignment are sticky shifts of the exact sum, or exact.
-/

namespace Sys2Proof.Machine

/-! ### Rounding to nearest even by midpoints -/

/-- The rounded quotient is above `q` when the number is above the midpoint of `q` and `q + 1`, or
on it with `q` odd. -/
theorem lt_divRoundEven_iff (n k q : Nat) :
    q < divRoundEven n k ↔
      (2 * q + 1) * 2 ^ k < 2 * n ∨ ((2 * q + 1) * 2 ^ k = 2 * n ∧ q % 2 = 1) := by
  have positive : 0 < 2 ^ k := by positivity
  have parts : 2 ^ k * (n / 2 ^ k) + n % 2 ^ k = n := Nat.div_add_mod n (2 ^ k)
  have rest_lt : n % 2 ^ k < 2 ^ k := Nat.mod_lt n positive
  simp only [divRoundEven]
  generalize n / 2 ^ k = quotient at parts ⊢
  generalize n % 2 ^ k = rest at parts rest_lt ⊢
  generalize 2 ^ k = unit at positive parts rest_lt ⊢
  subst parts
  rcases lt_trichotomy q quotient with below | rfl | above
  · have : (q + 1) * unit ≤ quotient * unit := Nat.mul_le_mul_right unit below
    have high : (2 * q + 1) * unit < 2 * (unit * quotient + rest) := by nlinarith
    refine iff_of_true ?_ (.inl high)
    split <;> omega
  · have mid : (2 * q + 1) * unit = 2 * (unit * q) + unit := by ring
    rw [mid]
    split <;> omega
  · have : (quotient + 1) * unit ≤ q * unit := Nat.mul_le_mul_right unit above
    have low : 2 * (unit * quotient + rest) < (2 * q + 1) * unit := by nlinarith
    refine iff_of_false ?_ (by omega)
    split <;> omega

theorem divRoundEven_mul_pow_self (n k : Nat) : divRoundEven (n * 2 ^ k) k = n := by
  have positive : 0 < 2 ^ k := by positivity
  simp only [divRoundEven, Nat.mul_div_cancel _ positive, Nat.mul_mod_left]
  rw [if_neg (by omega)]

theorem divRoundEven_mul_pow_add (n j k : Nat) :
    divRoundEven (n * 2 ^ k) (j + k) = divRoundEven n j := by
  refine eq_of_forall_lt_iff fun q => ?_
  have left : (2 * q + 1) * 2 ^ (j + k) = (2 * q + 1) * 2 ^ j * 2 ^ k := by rw [pow_add]; ring
  have right : 2 * (n * 2 ^ k) = 2 * n * 2 ^ k := by ring
  rw [lt_divRoundEven_iff, lt_divRoundEven_iff, left, right,
    Nat.mul_lt_mul_right (by positivity), Nat.mul_left_inj (by positivity)]

/-- With two bits or more to round away the midpoints are even, and a sticky shift keeps the side
of each. -/
theorem divRoundEven_stickyDiv (n k : Nat) {j : Nat} (hj : 2 ≤ j) :
    divRoundEven (stickyDiv n k) j = divRoundEven n (j + k) := by
  refine eq_of_forall_lt_iff fun q => ?_
  obtain ⟨i, rfl⟩ : ∃ i, j = i + 2 := Nat.exists_eq_add_of_le' hj
  have even : 2 ∣ (2 * q + 1) * 2 ^ (i + 1) := (dvd_pow_self 2 i.succ_ne_zero).mul_left _
  have mid : (2 * q + 1) * 2 ^ (i + 2) = 2 * ((2 * q + 1) * 2 ^ (i + 1)) := by ring
  have mid' : (2 * q + 1) * 2 ^ (i + 2 + k) = 2 * ((2 * q + 1) * 2 ^ (i + 1) * 2 ^ k) := by ring
  have above := lt_stickyDiv_iff (v := n) (n := k) even
  have below := stickyDiv_lt_iff (v := n) (n := k) even
  rw [lt_divRoundEven_iff, lt_divRoundEven_iff, mid, mid']
  omega

/-! ### Rounding to 24 significant bits and packing -/

/-- The 24 bits kept of a nonzero number, or `2^24` after a carry. -/
def significand24 (n : Nat) : Nat :=
  if n.log2 < 23 then n * 2 ^ (23 - n.log2) else divRoundEven n (n.log2 - 23)

/-- The number `n * 2^e` with its sign, rounded to 24 bits, range-checked and packed (R104,
R105). -/
def packRounded (sign : Bool) (e : Int) (n : Nat) : Word :=
  packInRange sign (if significand24 n = 2 ^ 24 then n.log2 + e + 1 else n.log2 + e)
    (if significand24 n = 2 ^ 24 then 2 ^ 23 else significand24 n)

theorem roundExact_eq (v : Int) :
    roundExact v = packRounded (decide (v < 0)) (-298) v.natAbs := rfl

theorem packRounded_congr {n n' : Nat} {e e' : Int} (kept : significand24 n = significand24 n')
    (top : n.log2 + e = n'.log2 + e') (sign : Bool) :
    packRounded sign e n = packRounded sign e' n' := by
  rw [packRounded, packRounded, kept, top]

theorem log2_mul_pow {n : Nat} (h : n ≠ 0) (k : Nat) : (n * 2 ^ k).log2 = n.log2 + k :=
  (log2_add_of_mul_pow (Nat.log2_self_le (by positivity)) Nat.lt_log2_self).symm

theorem significand24_mul_pow {n : Nat} (h : n ≠ 0) (k : Nat) :
    significand24 (n * 2 ^ k) = significand24 n := by
  rw [significand24, significand24, log2_mul_pow h]
  rcases Nat.lt_or_ge n.log2 23 with short | long
  · rw [if_pos short]
    split
    case isTrue still_short =>
      rw [mul_assoc, ← pow_add]
      congr 2
      omega
    case isFalse filled =>
      have shift : n * 2 ^ k = n * 2 ^ (23 - n.log2) * 2 ^ (n.log2 + k - 23) := by
        rw [mul_assoc, ← pow_add]
        congr 2
        omega
      rw [shift, divRoundEven_mul_pow_self]
  · have drop : n.log2 + k - 23 = n.log2 - 23 + k := by omega
    rw [if_neg (not_lt.mpr long), if_neg (by omega), drop, divRoundEven_mul_pow_add]

/-- Rounding does not depend on the unit the number is counted in. -/
theorem packRounded_mul_pow {n : Nat} (h : n ≠ 0) (sign : Bool) (e : Int) (k : Nat) :
    packRounded sign e (n * 2 ^ k) = packRounded sign (e + k) n := by
  refine packRounded_congr (significand24_mul_pow h k) ?_ sign
  rw [log2_mul_pow h]
  push_cast
  omega

/-- A sticky shift keeps the place of the highest set bit. -/
theorem log2_stickyDiv {n k : Nat} (h : 2 ≤ stickyDiv n k) :
    (stickyDiv n k).log2 + k = n.log2 := by
  have positive : 1 ≤ (stickyDiv n k).log2 := (Nat.le_log2 (by omega)).mpr h
  have nonzero : n ≠ 0 := by
    rintro rfl
    simp [(stickyDiv_eq_zero_iff 0 k).mpr rfl] at h
  have low := Nat.log2_self_le (n := stickyDiv n k) (by omega)
  have high : stickyDiv n k < 2 ^ ((stickyDiv n k).log2 + 1) := Nat.lt_log2_self
  rw [le_stickyDiv_iff (dvd_pow_self 2 (by omega)), ← pow_add] at low
  rw [stickyDiv_lt_iff (dvd_pow_self 2 (by omega)), ← pow_add, Nat.add_right_comm] at high
  exact ((Nat.log2_eq_iff nonzero).mpr ⟨low, high⟩).symm

/-- A sticky shift that leaves 26 bits or more is invisible to the rounding. -/
theorem packRounded_stickyDiv {n k : Nat} (h : 2 ^ 25 ≤ stickyDiv n k) (sign : Bool) (e : Int) :
    packRounded sign (e + k) (stickyDiv n k) = packRounded sign e n := by
  have long : 25 ≤ (stickyDiv n k).log2 := (Nat.le_log2 (by omega)).mpr h
  have top := log2_stickyDiv (n := n) (k := k) (by omega)
  refine packRounded_congr ?_ (by omega) sign
  have drop : n.log2 - 23 = (stickyDiv n k).log2 - 23 + k := by omega
  rw [significand24, significand24, if_neg (by omega), if_neg (by omega),
    divRoundEven_stickyDiv n k (by omega), drop]

/-- A sticky shift that drops nothing, or leaves 26 bits or more, is invisible to the rounding. -/
theorem packRounded_stickyDiv_of_faithful {n k : Nat} (hn : n ≠ 0)
    (h : 2 ^ k ∣ n ∨ 2 ^ 25 ≤ stickyDiv n k) (sign : Bool) (e : Int) :
    packRounded sign (e + k) (stickyDiv n k) = packRounded sign e n := by
  rcases h with ⟨q, rfl⟩ | large
  · rw [mul_comm, stickyDiv_mul_pow_self, packRounded_mul_pow (right_ne_zero_of_mul hn)]
  · exact packRounded_stickyDiv large sign e

/-! ### The packer and the renormalizer round correctly -/

theorem roundedOnce_eq_divRoundEven (m : Mantissa) : roundedOnce m = divRoundEven m.toNat 7 := by
  have condition : 64 < m.toNat % 2 ^ 7 ∨ (m.toNat % 2 ^ 7 = 64 ∧ m.toNat / 2 ^ 7 % 2 = 1) ↔
      2 ^ 7 < 2 * (m.toNat % 2 ^ 7) ∨
        (2 * (m.toNat % 2 ^ 7) = 2 ^ 7 ∧ m.toNat / 2 ^ 7 % 2 = 1) := by omega
  rw [roundedOnce_eq, divRoundEven]
  simp only [condition]

/-- RoundAndPack of a normalized mantissa rounds the value `m * 2^(e - 30)`. -/
theorem roundAndPack_eq_packRounded {m : Mantissa} (h : 2 ^ 30 ≤ m.toNat) (sign : Bool) (e : Int) :
    roundAndPack sign e m = packRounded sign (e - 30) m.toNat := by
  have top : m.toNat.log2 = 30 := (Nat.log2_eq_iff (by omega)).mpr ⟨h, m.isLt⟩
  have kept : significand24 m.toNat = roundedOnce m := by
    rw [significand24, top, roundedOnce_eq_divRoundEven]
    rfl
  have exponent : ((30 : Nat) : Int) + (e - 30) = e := by omega
  rw [roundAndPack, workingExponent_eq, roundedMantissa_eq, packRounded, kept, top, exponent]
  by_cases carry : roundedOnce m = 2 ^ 24
  · simp [carry]
  · simp only [carry, decide_false, if_false, Bool.false_eq_true]

theorem packRounded_normalizedMantissa {n : Nat} (h : n ≠ 0) (sign : Bool) (e : Int) :
    packRounded sign (e + n.log2 - 30) (normalizedMantissa n) = packRounded sign e n := by
  have bounds := normalizedMantissa_bounds h
  rw [normalizedMantissa] at bounds ⊢
  split
  case isTrue small =>
    rw [packRounded_mul_pow h]
    congr 1
    omega
  case isFalse large =>
    rw [if_neg large] at bounds
    rw [← packRounded_stickyDiv (k := n.log2 - 30) (n := n) (by omega)]
    congr 1
    omega

/-- Renormalize and RoundAndPack together round the value `m * 2^(e - 60)`, whatever its length. -/
theorem roundAndPack_renormalizeFloat {x : WideFloat} (h : x.mantissa ≠ 0#62) :
    roundAndPack (renormalizeFloat x).sign (renormalizeFloat x).exponent
        (renormalizeFloat x).mantissa =
      packRounded x.sign (x.exponent - 60) x.mantissa.toNat := by
  have number := renormalize_mantissa_toNat h x.sign x.exponent
  rw [renormalizeFloat, roundAndPack_eq_packRounded (le_renormalize_mantissa h _ _), number,
    renormalize_eq h, ← packRounded_normalizedMantissa (toNat_ne_zero h)]
  congr 1
  show x.exponent + (x.mantissa.toNat.log2 : Int) - 60 - 30 = _
  omega

/-! ### Exact values as signed magnitudes -/

/-- A sign and a magnitude as an integer. -/
def signedNat (sign : Bool) (n : Nat) : Int := if sign then -(n : Int) else n

@[simp] theorem signedNat_zero (sign : Bool) : signedNat sign 0 = 0 := by cases sign <;> rfl

theorem signedNat_eq_zero_iff (sign : Bool) (n : Nat) : signedNat sign n = 0 ↔ n = 0 := by
  cases sign <;> simp [signedNat]

@[simp] theorem signedNat_natAbs (sign : Bool) (n : Nat) : (signedNat sign n).natAbs = n := by
  cases sign <;> simp [signedNat]

theorem signedNat_neg_iff {n : Nat} (h : n ≠ 0) (sign : Bool) :
    decide (signedNat sign n < 0) = sign := by
  cases sign <;> simp [signedNat, Nat.pos_of_ne_zero h]

theorem signedNat_mul (s t : Bool) (m n : Nat) :
    signedNat s m * signedNat t n = signedNat (s != t) (m * n) := by
  cases s <;> cases t <;> simp [signedNat]

theorem signedNat_mul_natCast (s : Bool) (m n : Nat) :
    signedNat s m * (n : Int) = signedNat s (m * n) := by
  cases s <;> simp [signedNat]

theorem signedNat_add_same (s : Bool) (m n : Nat) :
    signedNat s m + signedNat s n = signedNat s (m + n) := by
  cases s
  · simp [signedNat]
  · simp only [signedNat, if_true]
    omega

theorem signedNat_add_opposite {s t : Bool} (h : s ≠ t) {m n : Nat} (le : n ≤ m) :
    signedNat s m + signedNat t n = signedNat s (m - n) := by
  cases s <;> cases t <;> simp [signedNat] at h ⊢ <;> omega

/-- An exact value in units of `2^-312`, rounded and packed. -/
def roundValue (v : Int) : Word := packRounded (decide (v < 0)) (-312) v.natAbs

theorem roundValue_signedNat {n : Nat} (h : n ≠ 0) (sign : Bool) :
    roundValue (signedNat sign n) = packRounded sign (-312) n := by
  rw [roundValue, signedNat_natAbs, signedNat_neg_iff h]

/-- The reference in units of `2^-312`. -/
theorem roundExact_eq_roundValue {v : Int} (h : v ≠ 0) :
    roundExact v = roundValue (v * 2 ^ 14) := by
  have negative : v * 2 ^ 14 < 0 ↔ v < 0 := by omega
  have magnitude : (v * 2 ^ 14).natAbs = v.natAbs * 2 ^ 14 := Int.natAbs_mul v (2 ^ 14)
  rw [roundExact_eq, roundValue, magnitude, packRounded_mul_pow (Int.natAbs_ne_zero.mpr h)]
  simp only [negative]
  rfl

/-! ### The values on the wires -/

/-- The value of a wide operand in units of `2^-312`, for exponents from -252 up: the point is at
bit 60. -/
def wideValue (x : WideFloat) : Int :=
  signedNat x.sign (x.mantissa.toNat * 2 ^ (x.exponent + 252).toNat)

/-- The pre-scaled addend as a wide operand (R125). -/
def wideAddend (c : UnpackedFloat) : WideFloat := ⟨c.sign, c.exponent, prescaled c⟩

theorem scaledValue_mul_pow (x : Word) :
    scaledValue x * 2 ^ 7 =
      signedNat (signOf x)
        ((splitFloat x).mantissa.toNat * 2 ^ ((splitFloat x).exponent + 126).toNat) := by
  by_cases h : exponentField x = 0#8
  · rw [scaledValue, if_pos h, splitFloat_mantissa_of_zeroClass h]
    simp
  · have shift : ((splitFloat x).exponent + 126).toNat = (exponentField x).toNat - 1 := by
      rw [splitFloat_exponent]
      omega
    have magnitude : scaledValue x = signedNat (signOf x)
        ((2 ^ 23 + (fractionField x).toNat) * 2 ^ ((exponentField x).toNat - 1)) := by
      rw [scaledValue, if_neg h]
      rfl
    rw [magnitude, splitFloat_mantissa_toNat_of_nonzero h, shift]
    have unit : ((2 : Int) ^ 7) = ((2 ^ 7 : Nat) : Int) := rfl
    rw [unit, signedNat_mul_natCast, Nat.mul_right_comm]

theorem wideValue_wideAddend (c : Word) :
    scaledValue c * 2 ^ 149 * 2 ^ 14 = wideValue (wideAddend (splitFloat c)) := by
  have unit : scaledValue c * 2 ^ 149 * 2 ^ 14 =
      scaledValue c * 2 ^ 7 * ((2 ^ 156 : Nat) : Int) := by
    push_cast
    ring
  rw [unit, scaledValue_mul_pow, signedNat_mul_natCast, wideValue, wideAddend, prescaled_toNat]
  by_cases h : (splitFloat c).mantissa = 0#31
  · simp [h]
  · have low := splitFloat_exponent_of_nonzero h
    have shift : ((splitFloat c).exponent + 252).toNat =
        ((splitFloat c).exponent + 126).toNat + 126 := by omega
    have magnitude (m k : Nat) : m * 2 ^ k * 2 ^ 156 = m * 2 ^ 30 * 2 ^ (k + 126) := by ring
    rw [shift, magnitude]
    rfl

theorem wideValue_fmaProduct (a b : Word) :
    scaledValue a * scaledValue b * 2 ^ 14 = wideValue (fmaProduct a b) := by
  have units : scaledValue a * scaledValue b * 2 ^ 14 =
      scaledValue a * 2 ^ 7 * (scaledValue b * 2 ^ 7) := by ring
  rw [units, scaledValue_mul_pow, scaledValue_mul_pow, signedNat_mul, wideValue, fmaProduct_sign]
  congr 1
  by_cases h : (fmaProduct a b).mantissa = 0#62
  · have zero : (splitFloat a).mantissa.toNat = 0 ∨ (splitFloat b).mantissa.toNat = 0 := by
      simpa only [splitFloat_mantissa_eq_zero_iff] using (fmaProduct_mantissa_eq_zero_iff a b).mp h
    rcases zero with zero | zero <;> simp [h, zero]
  · have nonzero := mt (fmaProduct_mantissa_eq_zero_iff a b).mpr h
    rw [not_or, ← splitFloat_mantissa_eq_zero, ← splitFloat_mantissa_eq_zero] at nonzero
    have lowA := splitFloat_exponent_of_nonzero nonzero.1
    have lowB := splitFloat_exponent_of_nonzero nonzero.2
    have number := product_mantissa_toNat (splitFloat a) (splitFloat b)
    have magnitude (m n i j : Nat) : m * 2 ^ i * (n * 2 ^ j) = m * n * 2 ^ (i + j) := by ring
    rw [magnitude, ← number]
    rcases fmaProduct_cases a b with ⟨-, same⟩ | ⟨-, -, raised, halved⟩
    · rw [same, product_exponent]
      congr 2
      omega
    · have shift : ((fmaProduct a b).exponent + 252).toNat =
          ((splitFloat a).exponent + 126).toNat + ((splitFloat b).exponent + 126).toNat + 1 := by
        rw [raised, product_exponent]
        omega
      rw [shift, ← halved]
      ring

/-- The exact `a*b + c` is the sum of the two values on the wires. -/
theorem exactSum_mul_pow (a b c : Word) :
    exactSum a b c * 2 ^ 14 =
      wideValue (fmaProduct a b) + wideValue (wideAddend (splitFloat c)) := by
  rw [exactSum, add_mul, wideValue_fmaProduct, wideValue_wideAddend]

/-! ### What is renormalized holds the exact sum -/

/-- The operand shows the value `v` up to a sticky shift that rounding does not see. -/
def Shows (x : WideFloat) (v : Int) : Prop :=
  ∃ n k j : Nat, v = signedNat x.sign (n * 2 ^ j) ∧ x.mantissa.toNat = stickyDiv n k ∧
    x.exponent + 252 = j + k ∧ (2 ^ k ∣ n ∨ 2 ^ 25 ≤ stickyDiv n k)

theorem Shows.mantissa_eq_zero {x : WideFloat} (h : Shows x 0) : x.mantissa = 0#62 := by
  obtain ⟨n, k, j, value, number, -, -⟩ := h
  have zero : n = 0 := by simpa using ((signedNat_eq_zero_iff _ _).mp value.symm)
  apply BitVec.eq_of_toNat_eq
  rw [number, (stickyDiv_eq_zero_iff n k).mpr zero]
  rfl

/-- An operand that shows a nonzero value is packed to that value, correctly rounded. -/
theorem Shows.rounds {x : WideFloat} {v : Int} (h : Shows x v) (nonzero : v ≠ 0) :
    roundAndPack (renormalizeFloat x).sign (renormalizeFloat x).exponent
        (renormalizeFloat x).mantissa = roundValue v := by
  obtain ⟨n, k, j, rfl, number, place, faithful⟩ := h
  have hm : n * 2 ^ j ≠ 0 := mt (signedNat_eq_zero_iff _ _).mpr nonzero
  have hn : n ≠ 0 := left_ne_zero_of_mul hm
  have hx : x.mantissa ≠ 0#62 := by
    intro zero
    rw [zero, eq_comm] at number
    exact hn ((stickyDiv_eq_zero_iff n k).mp number)
  have exponent : x.exponent - 60 = -312 + j + k := by omega
  rw [roundAndPack_renormalizeFloat hx, roundValue_signedNat hm, number, exponent,
    packRounded_stickyDiv_of_faithful hn faithful, packRounded_mul_pow hn]

/-- An operand shows its own value. -/
theorem shows_wideValue {x : WideFloat} (h : -252 ≤ x.exponent) : Shows x (wideValue x) :=
  ⟨x.mantissa.toNat, 0, (x.exponent + 252).toNat, rfl, (stickyDiv_zero_right _).symm, by omega,
    .inl (one_dvd _)⟩

theorem stickyDiv_add {x : Nat} (even : 2 ∣ x) (y k : Nat) :
    stickyDiv (x * 2 ^ k + y) k = x + stickyDiv y k := by
  symm
  apply eq_stickyDiv
  · intro t ht
    rcases le_or_gt x t with le | lt
    · obtain ⟨u, rfl⟩ := Nat.exists_eq_add_of_le le
      have := lt_stickyDiv_iff (v := y) (n := k) ((Nat.dvd_add_right even).mp ht)
      rw [Nat.add_mul]
      omega
    · have : t * 2 ^ k < x * 2 ^ k := Nat.mul_lt_mul_of_pos_right lt (by positivity)
      omega
  · intro t ht
    rcases le_or_gt x t with le | lt
    · obtain ⟨u, rfl⟩ := Nat.exists_eq_add_of_le le
      have := stickyDiv_lt_iff (v := y) (n := k) ((Nat.dvd_add_right even).mp ht)
      rw [Nat.add_mul]
      omega
    · have : t * 2 ^ k < x * 2 ^ k := Nat.mul_lt_mul_of_pos_right lt (by positivity)
      omega

theorem stickyDiv_sub {x : Nat} (even : 2 ∣ x) {y k : Nat} (le : stickyDiv y k ≤ x) :
    stickyDiv (x * 2 ^ k - y) k = x - stickyDiv y k := by
  have below : y ≤ x * 2 ^ k := not_lt.mp (mt (lt_stickyDiv_iff even).mpr (not_lt.mpr le))
  symm
  apply eq_stickyDiv
  · intro t ht
    rcases le_or_gt t x with inside | outside
    · obtain ⟨u, rfl⟩ := Nat.exists_eq_add_of_le inside
      have := stickyDiv_lt_iff (v := y) (n := k) ((Nat.dvd_add_right ht).mp even)
      rw [Nat.add_mul]
      omega
    · have : x * 2 ^ k < t * 2 ^ k := Nat.mul_lt_mul_of_pos_right outside (by positivity)
      omega
  · intro t ht
    rcases le_or_gt t x with inside | outside
    · obtain ⟨u, rfl⟩ := Nat.exists_eq_add_of_le inside
      have := lt_stickyDiv_iff (v := y) (n := k) ((Nat.dvd_add_right ht).mp even)
      rw [Nat.add_mul] at below ⊢
      omega
    · have : x * 2 ^ k < t * 2 ^ k := Nat.mul_lt_mul_of_pos_right outside (by positivity)
      omega

/-- What the alignment meets: a nonzero product or addend, at the accumulator's scale. -/
structure Alignable (x : WideFloat) : Prop where
  exponent_low : -252 ≤ x.exponent
  even : 2 ∣ x.mantissa.toNat
  large : 2 ^ 60 ≤ x.mantissa.toNat
  small : x.mantissa.toNat < 2 ^ 61

theorem fmaProduct_alignable {a b : Word} (hp : (fmaProduct a b).mantissa ≠ 0#62) :
    Alignable (fmaProduct a b) where
  exponent_low := fmaProduct_exponent_of_nonzero hp
  even := Dvd.dvd.trans (by decide) (dvd_fmaProduct_mantissa a b)
  large := le_fmaProduct_mantissa hp
  small := fmaProduct_mantissa_lt a b

theorem wideAddend_alignable {c : Word} (hc : (splitFloat c).mantissa ≠ 0#31) :
    Alignable (wideAddend (splitFloat c)) where
  exponent_low := le_trans (by decide) (splitFloat_exponent_of_nonzero hc)
  even := Dvd.dvd.trans (by decide) (dvd_prescaled_splitFloat c)
  large := le_prescaled_splitFloat hc
  small := prescaled_lt _

/-- A shift by 1 drops nothing of an even mantissa, and a longer one leaves the difference long. -/
theorem sub_faithful {ref oth : WideFloat} (href : Alignable ref) (hoth : Alignable oth) (k : Nat) :
    2 ^ k ∣ ref.mantissa.toNat * 2 ^ k - oth.mantissa.toNat ∨
      2 ^ 25 ≤ ref.mantissa.toNat - stickyDiv oth.mantissa.toNat k := by
  have large := href.large
  rcases Nat.lt_or_ge k 2 with short | long
  · have whole : 2 ^ k ∣ oth.mantissa.toNat :=
      (Nat.pow_dvd_pow 2 (by omega : k ≤ 1)).trans (by simpa using hoth.even)
    exact .inl (Nat.dvd_sub (dvd_mul_left _ _) whole)
  · have room : 2 ^ 61 ≤ 2 ^ 59 * 2 ^ k := by
      rw [← pow_add]
      exact Nat.pow_le_pow_right (by decide) (by omega)
    have shifted : stickyDiv oth.mantissa.toNat k < 2 ^ 59 :=
      (stickyDiv_lt_iff (by decide)).mpr (hoth.small.trans_le room)
    exact .inr (by omega)

section
variable {ref oth x : WideFloat} (href : Alignable ref) (hoth : Alignable oth)
  (order : oth.exponent ≤ ref.exponent) (sign : x.sign = ref.sign)
  (exponent : x.exponent = ref.exponent)
include href hoth order sign exponent

/-- Operands of the same sign: the even mantissa of the larger exponent passes through the sticky
shift of the sum. -/
theorem shows_add (same : ref.sign = oth.sign)
    (mantissa : x.mantissa.toNat =
      ref.mantissa.toNat + stickyDiv oth.mantissa.toNat (ref.exponent - oth.exponent).toNat) :
    Shows x (wideValue ref + wideValue oth) := by
  have low := hoth.exponent_low
  have large := href.large
  have scale : (ref.exponent + 252).toNat =
      (ref.exponent - oth.exponent).toNat + (oth.exponent + 252).toNat := by omega
  refine ⟨_, (ref.exponent - oth.exponent).toNat, (oth.exponent + 252).toNat, ?_,
    mantissa.trans (stickyDiv_add href.even _ _).symm, by omega, .inr ?_⟩
  · rw [wideValue, wideValue, sign, ← same, signedNat_add_same, scale, pow_add, ← mul_assoc,
      ← add_mul]
  · rw [stickyDiv_add href.even]
    omega

/-- Operands of different signs, the one of the larger exponent not smaller after alignment. -/
theorem shows_sub (differ : ref.sign ≠ oth.sign)
    (le : stickyDiv oth.mantissa.toNat (ref.exponent - oth.exponent).toNat ≤ ref.mantissa.toNat)
    (mantissa : x.mantissa.toNat =
      ref.mantissa.toNat - stickyDiv oth.mantissa.toNat (ref.exponent - oth.exponent).toNat) :
    Shows x (wideValue ref + wideValue oth) := by
  have low := hoth.exponent_low
  have scale : (ref.exponent + 252).toNat =
      (ref.exponent - oth.exponent).toNat + (oth.exponent + 252).toNat := by omega
  have below := not_lt.mp (mt (lt_stickyDiv_iff href.even).mpr (not_lt.mpr le))
  refine ⟨_, (ref.exponent - oth.exponent).toNat, (oth.exponent + 252).toNat, ?_,
    mantissa.trans (stickyDiv_sub href.even le).symm, by omega, ?_⟩
  · rw [wideValue, wideValue, sign, scale, pow_add, ← mul_assoc,
      signedNat_add_opposite differ (Nat.mul_le_mul_right _ below), ← Nat.sub_mul]
  · rw [stickyDiv_sub href.even le]
    exact sub_faithful href hoth _

end

section
variable {a b c : Word} (hp : (fmaProduct a b).mantissa ≠ 0#62)
  (hc : (splitFloat c).mantissa ≠ 0#31)
include hp hc

theorem shows_addAligned (hs : (fmaProduct a b).sign = (splitFloat c).sign) :
    Shows (addAligned (fmaProduct a b) (splitFloat c))
      (wideValue (fmaProduct a b) + wideValue (wideAddend (splitFloat c))) := by
  have product := fmaProduct_alignable hp
  have addend := wideAddend_alignable hc
  rcases le_or_gt (expDiff (fmaProduct a b) (splitFloat c)) 0 with nonpositive | positive
  · obtain ⟨sign, exponent⟩ := addAligned_of_nonpos nonpositive
    rw [add_comm]
    refine shows_add addend product (sub_nonpos.mp nonpositive) sign exponent hs.symm ?_
    rw [addAligned_toNat, alignedAddend_of_nonpos nonpositive, alignedProduct_toNat, expDiff,
      neg_sub, add_comm]
    rfl
  · obtain ⟨sign, exponent⟩ := addAligned_of_pos positive
    refine shows_add product addend (sub_nonneg.mp positive.le) sign exponent hs ?_
    rw [addAligned_toNat, alignedProduct_of_nonneg positive.le, alignedAddend_toNat]
    rfl

theorem shows_subtractFromProduct (hs : (fmaProduct a b).sign ≠ (splitFloat c).sign)
    (hl : productLarger (fmaProduct a b) (splitFloat c) = true) :
    Shows (subtractFromProduct (fmaProduct a b) (splitFloat c))
      (wideValue (fmaProduct a b) + wideValue (wideAddend (splitFloat c))) := by
  have smaller := aligned_lt_of_productLarger hp hl
  have nonnegative : 0 ≤ expDiff (fmaProduct a b) (splitFloat c) := by
    rcases productLarger_iff.mp hl with positive | ⟨zero, -⟩
    · exact positive.le
    · exact zero.ge
  have difference := subtractFromProduct_toNat (p := fmaProduct a b) (c := splitFloat c)
  rw [alignedProduct_of_nonneg nonnegative, alignedAddend_toNat] at smaller difference
  exact shows_sub (fmaProduct_alignable hp) (wideAddend_alignable hc) (sub_nonneg.mp nonnegative)
    rfl rfl hs smaller.le difference

theorem shows_subtractFromAddend (hs : (fmaProduct a b).sign ≠ (splitFloat c).sign)
    (hl : productLarger (fmaProduct a b) (splitFloat c) = false) :
    Shows (subtractFromAddend (fmaProduct a b) (splitFloat c))
      (wideValue (fmaProduct a b) + wideValue (wideAddend (splitFloat c))) := by
  obtain ⟨nonpositive, le⟩ : expDiff (fmaProduct a b) (splitFloat c) ≤ 0 ∧
      (alignedProduct (fmaProduct a b) (splitFloat c)).toNat ≤
        (prescaled (splitFloat c)).toNat := by
    rcases aligned_le_of_not_productLarger hc hl with ⟨negative, smaller⟩ | ⟨zero, le⟩
    · rw [alignedAddend_of_nonpos negative.le] at smaller
      exact ⟨negative.le, smaller.le⟩
    · rw [alignedProduct_of_nonneg zero.ge]
      exact ⟨zero.le, le⟩
  have difference := subtractFromAddend_toNat (p := fmaProduct a b) (c := splitFloat c)
  rw [alignedAddend_of_nonpos nonpositive, alignedProduct_toNat, expDiff, neg_sub] at difference
  rw [alignedProduct_toNat, expDiff, neg_sub] at le
  rw [add_comm]
  exact shows_sub (wideAddend_alignable hc) (fmaProduct_alignable hp) (sub_nonpos.mp nonpositive)
    rfl rfl hs.symm le difference

end

theorem wideValue_wideAddend_of_zero {c : UnpackedFloat} (h : c.mantissa = 0#31) :
    wideValue (wideAddend c) = 0 := by
  simp [wideValue, wideAddend, prescaled_toNat, h]

/-- In every case what is renormalized shows the exact sum of the two values on the wires. -/
theorem shows_wideOperand {a b : Word} (hp : (fmaProduct a b).mantissa ≠ 0#62) (c : Word) :
    Shows (wideOperand (fmaProduct a b) (splitFloat c)) (exactSum a b c * 2 ^ 14) := by
  rw [exactSum_mul_pow]
  rcases fmaTriple_cases (fmaProduct a b) (splitFloat c) with ⟨-, zero, -⟩ | ⟨tag, -, hc, -⟩ |
    ⟨tag, -, hc, hs, -⟩ | ⟨tag, -, hc, hs, hl, -⟩ | ⟨tag, -, hc, hs, hl, -⟩
  · exact absurd zero hp
  all_goals rw [wideOperand, tag]
  · rw [wideValue_wideAddend_of_zero hc, add_zero]
    exact shows_wideValue (fmaProduct_exponent_of_nonzero hp)
  · exact shows_addAligned hp hc hs
  · exact shows_subtractFromProduct hp hc hs hl
  · exact shows_subtractFromAddend hp hc hs hl

/-! ### The unit rounds correctly -/

theorem wideValue_eq_zero_iff (x : WideFloat) : wideValue x = 0 ↔ x.mantissa = 0#62 := by
  rw [wideValue, signedNat_eq_zero_iff, Nat.mul_eq_zero, ← BitVec.toNat_inj]
  simp

/-- A nonzero operand is packed as it would be after renormalizing its pre-scaled form. -/
theorem roundAndPack_wideAddend {c : Word} (hc : (splitFloat c).mantissa ≠ 0#31) :
    roundAndPack (splitFloat c).sign (splitFloat c).exponent (splitFloat c).mantissa =
      roundAndPack (renormalizeFloat (wideAddend (splitFloat c))).sign
        (renormalizeFloat (wideAddend (splitFloat c))).exponent
        (renormalizeFloat (wideAddend (splitFloat c))).mantissa := by
  have normal := le_splitFloat_mantissa_of_nonzero (mt splitFloat_mantissa_eq_zero.mpr hc)
  have wide : (wideAddend (splitFloat c)).mantissa ≠ 0#62 := by
    intro zero
    have large := (wideAddend_alignable hc).large
    simp [zero] at large
  rw [roundAndPack_renormalizeFloat wide, roundAndPack_eq_packRounded normal, wideAddend,
    prescaled_toNat, packRounded_mul_pow (by omega)]
  congr 1
  push_cast
  omega

/-- Settles O37: what is renormalized shows the exact sum, and what shows a value is packed to that
value rounded. A zero product leaves the addend, which shows itself. -/
theorem fmaIsCorrectlyRounded : Obligations.FmaIsCorrectlyRounded := by
  intro a b c nonzero
  have nonzero' : exactSum a b c * 2 ^ 14 ≠ 0 := by omega
  rw [roundExact_eq_roundValue nonzero, fma]
  by_cases hp : (fmaProduct a b).mantissa = 0#62
  · rw [exactSum_mul_pow, (wideValue_eq_zero_iff _).mpr hp, zero_add] at nonzero' ⊢
    have hc := mt wideValue_wideAddend_of_zero nonzero'
    rw [fmaTriple_of_product_zero hp, roundAndPack_wideAddend hc]
    exact (shows_wideValue (wideAddend_alignable hc).exponent_low).rounds nonzero'
  · rw [fmaTriple_eq_wideOperand hp]
    exact (shows_wideOperand hp c).rounds nonzero'

theorem scaledValue_eq_zero_iff (x : Word) : scaledValue x = 0 ↔ exponentField x = 0#8 := by
  have scaled : scaledValue x = 0 ↔ scaledValue x * 2 ^ 7 = 0 := by omega
  rw [scaled, scaledValue_mul_pow, signedNat_eq_zero_iff, Nat.mul_eq_zero,
    splitFloat_mantissa_eq_zero_iff]
  simp

/-- Settles O36: the product of nonzero operands that cancel is not zero, and what is renormalized
shows 0, so it is 0. -/
theorem exactCancellationGivesPositiveZero : Obligations.ExactCancellationGivesPositiveZero := by
  intro a b c cancel nonzero
  have hp : (fmaProduct a b).mantissa ≠ 0#62 := by
    intro zero
    rw [fmaProduct_mantissa_eq_zero_iff, ← scaledValue_eq_zero_iff, ← scaledValue_eq_zero_iff,
      ← mul_eq_zero] at zero
    rw [exactSum, zero] at cancel
    omega
  have shown := shows_wideOperand hp c
  rw [cancel, zero_mul] at shown
  rw [fma, fmaTriple_eq_wideOperand hp, renormalizeFloat, shown.mantissa_eq_zero, renormalize_zero]
  exact roundAndPack_zero false

/-! ### Addition through 1.0 (R133) and the idioms (R59) -/

theorem scaledValue_one : scaledValue 0x3F800000 = 2 ^ 149 := by decide

theorem exactSum_one (x y : Word) :
    exactSum x 0x3F800000 y = (scaledValue x + scaledValue y) * 2 ^ 149 := by
  rw [exactSum, scaledValue_one, add_mul]

/-- Through 1.0 the factor and the addend are interchangeable: the exact sum is symmetric, a
cancellation gives +0 either way, and of two zeros of one sign each passes that zero. -/
theorem fma_one_comm {x y : Word}
    (h : ¬ (exponentField x = 0#8 ∧ exponentField y = 0#8 ∧ signOf x ≠ signOf y)) :
    fma x 0x3F800000 y = fma y 0x3F800000 x := by
  have symmetric : exactSum x 0x3F800000 y = exactSum y 0x3F800000 x := by
    rw [exactSum_one, exactSum_one, add_comm]
  by_cases zero : exactSum x 0x3F800000 y = 0
  · have opposite : scaledValue x + scaledValue y = 0 := by
      rw [exactSum_one] at zero
      omega
    by_cases hx : scaledValue x = 0
    · have hx' := (scaledValue_eq_zero_iff x).mp hx
      have hy' := (scaledValue_eq_zero_iff y).mp (by omega)
      have same : signOf x = signOf y := by
        by_contra differ
        exact h ⟨hx', hy', differ⟩
      rw [fma_of_product_zero (.inl hx'), fma_of_product_zero (.inl hy'),
        flushToZero_of_zeroClass hx', flushToZero_of_zeroClass hy', same]
    · rw [exactCancellationGivesPositiveZero _ _ _ zero (by omega),
        exactCancellationGivesPositiveZero _ _ _ (symmetric ▸ zero) hx]
  · rw [fmaIsCorrectlyRounded _ _ _ zero, fmaIsCorrectlyRounded _ _ _ (symmetric ▸ zero), symmetric]

/-- Settles O39: the exception is the one pair of words for which both orders pass a zero of their
own. -/
theorem additiveRolesCommuteButForSignedZeros :
    Obligations.AdditiveRolesCommuteButForSignedZeros := by
  intro x y one
  refine ⟨fmaCommutesInItsFactors _ _ _, fmaCommutesInItsFactors _ _ _, fma_one_comm, ?exception⟩
  case exception =>
    intro hx hy differ
    have passY : fma x one y = signedZero (signOf y) := by
      rw [fma_of_product_zero (.inl hx), flushToZero_of_zeroClass hy]
    have passX : fma y one x = signedZero (signOf x) := by
      rw [fma_of_product_zero (.inl hy), flushToZero_of_zeroClass hx]
    rw [passX, passY, and_signBit_eq_signedZero, and_signBit_eq_signedZero]
    refine ⟨rfl, rfl, fun same => differ ?_⟩
    rw [← signOf_signedZero (signOf x), ← same, signOf_signedZero]

theorem packFields_xor (s t : Bool) (f g : BitVec 8) (q r : BitVec 23) :
    packFields s f q ^^^ packFields t g r = packFields (s ^^ t) (f ^^^ g) (q ^^^ r) := by
  have upper : (BitVec.ofBool s ++ f) ^^^ (BitVec.ofBool t ++ g) =
      BitVec.ofBool (s ^^ t) ++ (f ^^^ g) := by
    rw [BitVec.xor_append, BitVec.ofBool_xor_ofBool]
  calc packFields s f q ^^^ packFields t g r
      = ((BitVec.ofBool s ++ f) ^^^ (BitVec.ofBool t ++ g)) ++ (q ^^^ r) := BitVec.xor_append
    _ = packFields (s ^^ t) (f ^^^ g) (q ^^^ r) := by rw [upper, packFields]

/-- A word with its sign inverted. -/
theorem xor_signBit_eq_packFields (x : Word) :
    x ^^^ 0x80000000 = packFields (!signOf x) (exponentField x) (fractionField x) := by
  have signBit : (0x80000000 : Word) = packFields true 0#8 0#23 := rfl
  have inverted := packFields_xor (signOf x) true (exponentField x) 0#8 (fractionField x) 0#23
  rwa [packFields_of_fields, ← signBit, BitVec.xor_zero, BitVec.xor_zero, Bool.xor_true] at inverted

theorem exponentField_xor_signBit (x : Word) :
    exponentField (x ^^^ 0x80000000) = exponentField x := by
  rw [xor_signBit_eq_packFields, exponentField_packFields]

theorem splitFloat_xor_signBit (x : Word) :
    splitFloat (x ^^^ 0x80000000) =
      ⟨!signOf x, (splitFloat x).exponent, (splitFloat x).mantissa⟩ := by
  simp only [splitFloat, xor_signBit_eq_packFields, signOf_packFields, exponentField_packFields,
    fractionField_packFields]

/-- The sign of a factor may be moved to the other factor. -/
theorem fma_minus_one (x y : Word) : fma x 0xBF800000 y = fma (x ^^^ 0x80000000) 0x3F800000 y := by
  have minusOne : splitFloat 0xBF800000 = ⟨true, 0, 0x40000000⟩ := by decide
  have one : splitFloat 0x3F800000 = ⟨false, 0, 0x40000000⟩ := by decide
  have same : fmaProduct x 0xBF800000 = fmaProduct (x ^^^ 0x80000000) 0x3F800000 := by
    rw [fmaProduct, fmaProduct, splitFloat_xor_signBit, minusOne, one, product, product,
      splitFloat_sign, Bool.xor_true, Bool.xor_false]
  rw [fma, fma, same]

/-- Times 1.0 plus zero: the two orders of the sum agree, and 0 as the factor passes the addend. -/
theorem fma_one_zero (x : Word) :
    fma x 0x3F800000 0 = if exponentField x = 0#8 then 0 else x := by
  by_cases h : exponentField x = 0#8
  · rw [if_pos h, fma_of_product_zero (.inl h)]
    rfl
  · rw [if_neg h, fma_one_comm fun both => h both.1, fma_of_product_zero (.inl rfl),
      flushToZero_of_nonzero h]

/-- Settles O40: each idiom is a sum through 1.0, a zero product, or a sign moved between
factors. -/
theorem idiomsComputeWhatTheySay : Obligations.IdiomsComputeWhatTheySay := by
  intro x y a
  refine ⟨fma_one_zero x, ?negate, fun h => ⟨?right, ?left⟩, fma_minus_one x y⟩
  case negate => rw [fma_minus_one, fma_one_zero, exponentField_xor_signBit]
  case right =>
    rw [fma_of_product_zero (.inr h)]
    rfl
  case left =>
    rw [fma_of_product_zero (.inl h)]
    rfl

end Sys2Proof.Machine
end
